-- ==== Sys2Proof/Word.lean ====
section
/-! DEFINITION. The instruction word and its fields' width (`00_scope.md` R9, R11; `30_encoding.md` R65). -/

namespace Sys2Proof

/-- One field of an instruction: `FIELD_W` = 8 bits, unsigned (R9, R11). -/
abbrev Byte := BitVec 8

/-- One instruction word: `WORD_W` = 24 bits, the addressable unit of the program memory (R9, R41, R65). -/
abbrev Word := BitVec 24

/-- `NOP_WORD`: opcode 0, both operands 0 (R9, R123). -/
def nopWord : Word := 0

end Sys2Proof
end

