-- ==== Sys2Proof/Config.lean ====
section
/-! DEFINITION. What is fixed for a machine and is not its state (`10_state.md` R26): the fixed parameters of
`00_scope.md` R9, the open parameters of R10 as one record, the program and the range table, and the free values of
the demonstration program. -/

namespace Sys2Proof

/-- `CAPACITY`: the number of addressable words (R9). -/
def capacity : Nat := 256

/-- `PROGRAM_LEN`: the words of the demonstration program (R9, R125). -/
def programLen : Nat := 30

/-- `UNKNOWN_NAME`: the sentinel of `subroutine_name` (R9, R146). -/
def unknownName : String := "Unknown"

/-- Which operand field of a jump or call holds the target address (`TARGET_SLOT`, R10). -/
inductive OperandSlot where
  | operand1
  | operand2
  deriving DecidableEq, Repr, Inhabited

/-- The open parameters of R10.  A width that R10 bounds from below is kept as its excess over that bound, so that
every value of this record is in the domain R10 gives. `TARGET_SLOT` is split per instruction, as R122 allows. -/
structure Params where
  /-- `OP_JMP` (R121, D8). -/
  opJmp : Byte
  /-- `OP_CALL` (R122, D8). -/
  opCall : Byte
  /-- The field of a jump that holds its target (R73, D8). -/
  jmpTargetSlot : OperandSlot
  /-- The field of a call that holds its target (R122, D8). -/
  callTargetSlot : OperandSlot
  /-- `CONTAINER_W` - 24 (R22, D1). -/
  containerExtra : Nat
  /-- `ADDR_IN_W` - 8 (D4). -/
  addrInExtra : Nat
  /-- `ENC_IN_W` - 8 (D5). -/
  encInExtra : Nat
  deriving DecidableEq, Repr, Inhabited

/-- `CONTAINER_W`, any width of at least 24 (R10, R22). -/
def Params.containerW (p : Params) : Nat := 24 + p.containerExtra

/-- `ADDR_IN_W`, any width of at least 8 (R10). -/
def Params.addrInW (p : Params) : Nat := 8 + p.addrInExtra

/-- `ENC_IN_W`, any width of at least 8 (R10). -/
def Params.encInW (p : Params) : Nat := 8 + p.encInExtra

/-- An argument list of `assemble`: one entry of `PROGRAM` (R16, R120). The components may be wider than a field, or
negative, since `assemble` truncates (R93). -/
structure Triple where
  opcode : Int
  operand1 : Int
  operand2 : Int
  deriving DecidableEq, Repr, Inhabited

/-- One instruction of a program written with labels: fields as they are, or a jump or call whose target is the symbolic
address constant of a label (R81, R149, R203); `other` is the operand field that holds no target. -/
inductive SourceItem where
  | fields (triple : Triple)
  | jump (label : String) (other : Byte)
  | call (label : String) (other : Byte)
  deriving DecidableEq, Repr

/-- One entry of `RANGES`: start inclusive, end exclusive, name (R141). -/
structure SubroutineRange where
  start : Nat
  stop : Nat
  name : String
  deriving DecidableEq, Repr, Inhabited

/-- The program and its range table, one configuration record (R26, R149). A program longer than the memory is no
configuration: the record cannot hold one (R105, D13). DESIGN CHOICE (log 16): any range table is taken, one that
overlaps, is unsorted or does not partition the program too; U12 lets a model refuse such a table or scan it. -/
structure ProgramConfig where
  program : List Triple
  ranges : List SubroutineRange
  fits : program.length ≤ capacity
  deriving DecidableEq, Repr

/-- The configuration of a program and a range table; a program that does not fit is refused (R105, D13). DESIGN CHOICE
(log 16): a range table is never refused, though U12 allows it for one that breaks R142. -/
def ProgramConfig.make? (program : List Triple) (ranges : List SubroutineRange) : Option ProgramConfig :=
  if h : program.length ≤ capacity then some ⟨program, ranges, h⟩ else none

/-- FREE VALUES: the open parameters of this machine (R10; no default, D8). -/
opaque Config.params : Params

/-- FREE VALUE: the operand `x` of the jump at address 0 that the source does not give (R121, D8). -/
opaque Config.jmpOther : Byte

/-- FREE VALUE: the operand `y` of the call at address 8 that the source does not give (R122, D8). -/
opaque Config.callOther : Byte

/-- FREE VALUE: opcode, operand1 and operand2 of the demonstration program's word at an address other than 0 and 8
(R120, R128, D7). -/
opaque Config.programFields : Nat → Byte × Byte × Byte

end Sys2Proof
end

