-- ==== Sys2Proof/Syntax.lean ====
section
/-! DEFINITION. The rows of `spec/opcode_table.json`: four kinds of stored instruction word and the five operations of
the block. -/

namespace Sys2Proof

/-- One constructor per row of the opcode table. -/
inductive Instr where
  /-- ANY: the general instruction word (R65, R78). -/
  | any (opcode operand1 operand2 : Byte)
  /-- NOP: the all-zero word (R123). -/
  | nop
  /-- JMP: a jump to the absolute word address `target`; `other` is its other operand field (R121). -/
  | jmp (target other : Byte)
  /-- CALL: a call of the absolute word address `target`; `other` is its other operand field (R122). -/
  | call (target other : Byte)
  /-- assemble: pack one instruction word (R90). Inputs of `ENC_IN_W` bits, unsigned, or signed by D5. -/
  | assemble (opcode operand1 operand2 : Int)
  /-- construct: bring the memory into existence (R100). -/
  | construct
  /-- write: load the program, once (R102). -/
  | write
  /-- read: the instruction word at an address of `ADDR_IN_W` bits (R106). -/
  | read (address : Nat)
  /-- subroutine_name: the routine that contains an address of `ADDR_IN_W` bits (R143). -/
  | subroutineName (address : Nat)
  deriving DecidableEq, Repr

end Sys2Proof
end

