-- ==== Sys2Proof/WellFormed.lean ====
section
/-! DEFINITION. Which terms of `Instr` stand for something the machine with given parameters has: a word row names a
word by the most specific row of the table that fits it, and an operation's inputs fit the widths of R10. -/

namespace Sys2Proof

/-- The value fits an input of `w` bits, read as unsigned or as two's complement (`00_scope.md` R10, D5). -/
def fitsInput (w : Nat) (v : Int) : Bool := decide (-(2 ^ (w - 1) : Int) ≤ v) && decide (v < (2 ^ w : Int))

/-- Well-formedness with respect to the open parameters. The word with all fields 0 is NOP and nothing else (R123);
a word whose opcode is `OP_JMP` is a jump, one whose opcode is `OP_CALL` and not `OP_JMP` a call (R121, R122; that
the two opcodes differ is not assumed, R128); every other word is the general ANY (R78). -/
def Instr.wellFormed (p : Params) : Instr → Bool
  | .any o a b => !(o == 0 && a == 0 && b == 0) && !(o == p.opJmp) && !(o == p.opCall)
  | .nop => true
  | .jmp t x => !(p.opJmp == 0 && t == 0 && x == 0)
  | .call t y => !(p.opCall == p.opJmp) && !(p.opCall == 0 && t == 0 && y == 0)
  | .assemble o a b => fitsInput p.encInW o && fitsInput p.encInW a && fitsInput p.encInW b
  | .construct => true
  | .write => true
  | .read a => decide (a < 2 ^ p.addrInW)
  | .subroutineName a => decide (a < 2 ^ p.addrInW)

end Sys2Proof
end

