-- ==== Sys2Proof/Decode.lean ====
section
/-! DEFINITION. The word format `W24`: packing and extraction of the three fields (`30_encoding.md` R65 to R73), the
decoder of words to the rows of the opcode table and the encoder back. To the block every word is data; the decoder
gives a word the most specific name the table has for it (R75, R78). -/

namespace Sys2Proof

/-- The word of three fields: opcode in bits 23-16, operand1 in 15-8, operand2 in 7-0 (R65, R67). -/
def packWord (o a b : Byte) : Word :=
  (o.setWidth 24 <<< 16) ||| (a.setWidth 24 <<< 8) ||| b.setWidth 24

/-- `opcode(w) = w[23:16]` (R68). -/
def opcodeOf (w : Word) : Byte := w.extractLsb' 16 8

/-- `operand1(w) = w[15:8]` (R68). -/
def operand1Of (w : Word) : Byte := w.extractLsb' 8 8

/-- `operand2(w) = w[7:0]` (R68). -/
def operand2Of (w : Word) : Byte := w.extractLsb' 0 8

/-- The operand field that `TARGET_SLOT` names (R73). -/
def targetOf (slot : OperandSlot) (w : Word) : Byte :=
  match slot with
  | .operand1 => operand1Of w
  | .operand2 => operand2Of w

/-- The operand field that `TARGET_SLOT` does not name (R73). -/
def otherOf (slot : OperandSlot) (w : Word) : Byte :=
  match slot with
  | .operand1 => operand2Of w
  | .operand2 => operand1Of w

/-- The word of a jump or call: opcode `op`, target `t` in the field `slot`, `x` in the other (R121, R122). -/
def targetWord (op : Byte) (slot : OperandSlot) (t x : Byte) : Word :=
  match slot with
  | .operand1 => packWord op t x
  | .operand2 => packWord op x t

/-- The row of the opcode table a word belongs to, the most specific first. Total: no word is illegal (R78). -/
def decodeWord (p : Params) (w : Word) : Instr :=
  if w = nopWord then .nop
  else if opcodeOf w = p.opJmp then .jmp (targetOf p.jmpTargetSlot w) (otherOf p.jmpTargetSlot w)
  else if opcodeOf w = p.opCall then .call (targetOf p.callTargetSlot w) (otherOf p.callTargetSlot w)
  else .any (opcodeOf w) (operand1Of w) (operand2Of w)

/-- Why a sequence of bits is not one instruction word (R66: every instruction is 24 bits long). -/
inductive DecodeReject where
  /-- Fewer than 24 bits: "There is no shorter or longer form" (R66). No bits at all is an operation of the block, which
  has no encoding. Raised by `wordOfBits`. Safe. -/
  | shorterThanAWord (nbits : Nat)
  /-- More than 24 bits (R66). Raised by `wordOfBits`. Safe. -/
  | longerThanAWord (nbits : Nat)
  deriving DecidableEq, Repr

/-- The word that `nbits` bits numbered as the opcode table numbers them make: exactly 24 bits are one instruction
(R66). -/
def wordOfBits (nbits w : Nat) : Except DecodeReject Word :=
  if nbits < 24 then .error (.shorterThanAWord nbits)
  else if nbits = 24 then .ok (BitVec.ofNat 24 w)
  else .error (.longerThanAWord nbits)

/-- What the decoder reads from bits numbered as the opcode table numbers them, under given parameters. -/
def decodeBits (p : Params) (nbits w : Nat) : Except DecodeReject Instr :=
  match wordOfBits nbits w with
  | .ok word => .ok (decodeWord p word)
  | .error r => .error r

/-- What this machine's decoder reads from bits numbered as the opcode table numbers them. -/
def decodeTableWord (nbits w : Nat) : Option Instr :=
  match decodeBits Config.params nbits w with
  | .ok i => some i
  | .error _ => none

/-- The word of an instruction; an operation of the block is no instruction word (`opcode_table.json`). -/
def encodeWord (p : Params) : Instr → Option Word
  | .any o a b => some (packWord o a b)
  | .nop => some nopWord
  | .jmp t x => some (targetWord p.opJmp p.jmpTargetSlot t x)
  | .call t y => some (targetWord p.opCall p.callTargetSlot t y)
  | .assemble _ _ _ => none
  | .construct => none
  | .write => none
  | .read _ => none
  | .subroutineName _ => none

end Sys2Proof
end

