-- ==== Sys2Proof/Machine/State.lean ====
section
/-! DEFINITION. The state of the block (`10_state.md` R20: the slot array and the initialization flag), with what stands
between the block and its environment: the operations asked for and the output of the last one. -/

namespace Sys2Proof.Machine

/-- The program memory: pairs of a slot's index and its word, indexes strictly rising and below 256, and no pair with
the word 0, which is what an unlisted slot holds (R21, R23, R35). The unit is the 24-bit word, not a byte (R41). -/
abbrev Memory := List (Nat × Word)

/-- All 256 slots 0 (R35). -/
def Memory.blank : Memory := []

/-- Who asks the block for an operation (`60_exceptions.md` R176). -/
inductive Agent where
  | bootstrapOwner
  | fetchEngine
  | debugger
  deriving DecidableEq, Repr

/-- The operations the block can be asked for. `construct` is none of them: it is the initial state only (R100). -/
inductive Operation where
  | assemble (opcode operand1 operand2 : Int)
  | write
  | read (address : Nat)
  | subroutineName (address : Nat)
  deriving DecidableEq, Repr

/-- One operation asked for by one agent (R182). -/
structure Request where
  agent : Agent
  operation : Operation
  deriving DecidableEq, Repr

/-- What an operation puts on its output port (R92, R101, D2). -/
inductive Response where
  /-- `word_o`, the encoder's output. -/
  | wordO (word : Word)
  /-- `data_o`, the read port's output. -/
  | dataO (word : Word)
  /-- The debug lookup's output. -/
  | nameO (name : String)
  deriving DecidableEq, Repr

/-- The machine. `mem` and `initDone` are the block's whole state (R20); `requests` and `response` are the model's own:
the environment's operations still to be done, first to be done first, and the output of the last one done. -/
structure State where
  mem : Memory
  initDone : Bool
  requests : List Request
  response : Option Response
  deriving DecidableEq, Repr

/-- The block has no fault: "The block raises no exception, of any kind, ever" (R160). So this type has no value. -/
inductive Fault where
  deriving DecidableEq, Repr

/-- Why the model gives no meaning. -/
inductive Refusal where
  /-- An instruction without a meaning in this model, by its mnemonic. Raised by nothing: every row has one. Safe. -/
  | notModelled (mnemonic : String)
  deriving DecidableEq, Repr

/-- The block right after its construction: every slot 0, `init_done` 0 (R35, R191); nothing asked for and nothing
answered. -/
def State.reset : State :=
  { mem := Memory.blank, initDone := false, requests := [], response := none }

end Sys2Proof.Machine
end

