-- ==== Sys2Proof/Machine/Flags.lean ====
section
/-! DEFINITION. The one flag of the block, `init_done`, and the two conditions it tells apart (`10_state.md` R24, R29,
R34). There are no condition codes (R29). -/

namespace Sys2Proof.Machine

/-- The two conditions of the block's life (R34). -/
inductive Condition where
  | constructed
  | initialized
  deriving DecidableEq, Repr

/-- The condition the flag's value stands for (R34). -/
def State.condition (s : State) : Condition := if s.initDone then .initialized else .constructed

/-- The flag after `construct` (R100). -/
def initDoneConstructed : Bool := false

/-- The flag after `write`, first or later (R24, R102). -/
def initDoneWritten : Bool := true

/-- The test at the start of `write`: population is due while the flag is 0 (R24, R102). -/
def State.populationDue (s : State) : Bool := !s.initDone

end Sys2Proof.Machine
end

