-- ==== Sys2Proof/Machine/Operands.lean ====
section
/-! DEFINITION. Operand forms: truncation of the encoder's inputs (`40_encoder.md` R93), the encoder itself (R90), the
container of a word (`10_state.md` R22) and the split of a 16-bit operand over two instructions (`30_encoding.md` R72). -/

namespace Sys2Proof.Machine

/-- `trunc8(v) = v mod 256`, the low eight bits of `v`; of a negative `v`, those of its two's complement (R93, D5). -/
def trunc8 (v : Int) : Byte := BitVec.ofInt 8 v

/-- `assemble`: each input truncated to eight bits, then packed (R90). -/
def assemble (opcode operand1 operand2 : Int) : Word :=
  packWord (trunc8 opcode) (trunc8 operand1) (trunc8 operand2)

/-- The word of one program entry (R98, R102). -/
def assembleTriple (t : Triple) : Word := assemble t.opcode t.operand1 t.operand2

/-- The triple of three fields already eight bits wide. -/
def tripleOfFields (o a b : Byte) : Triple := { opcode := o.toNat, operand1 := a.toNat, operand2 := b.toNat }

/-- A word in a container of `CONTAINER_W` bits: zero-extended (R22, R70). -/
def container (p : Params) (w : Word) : BitVec p.containerW := w.setWidth p.containerW

/-- `p[15:8]` (R72, D19). -/
def highByte (p : BitVec 16) : Byte := p.extractLsb' 8 8

/-- `p[7:0]` (R72, D19). -/
def lowByte (p : BitVec 16) : Byte := p.extractLsb' 0 8

end Sys2Proof.Machine
end

