-- ==== Sys2Proof/Machine/Ops.lean ====
section
/-! DEFINITION. The operations over the slot array, the requests and the output that the meanings share. The block takes
no exception and returns from none (`60_exceptions.md` R160, R166, R167), so there is no operation for either. -/

namespace Sys2Proof.Machine

/-- The word of the slot with index `a`; an unlisted slot holds the no-op word (R23, R35). -/
def slotWord : Memory → Nat → Word
  | [], _ => nopWord
  | (b, v) :: rest, a => if b = a then v else slotWord rest a

/-- `MemRead(a, 1)`: the slot if the address is below the capacity, else the fallback 0 (R106). -/
def memRead (m : Memory) (a : Nat) : Word := if a < capacity then slotWord m a else nopWord

/-- Put a word into a slot, keeping the list in its one form. -/
def setSlot : Memory → Nat → Word → Memory
  | [], a, w => if w = nopWord then [] else [(a, w)]
  | (b, v) :: rest, a, w =>
    if a < b then (if w = nopWord then (b, v) :: rest else (a, w) :: (b, v) :: rest)
    else if a = b then (if w = nopWord then rest else (a, w) :: rest)
    else (b, v) :: setSlot rest a w

/-- `MemWrite(a, 1, w)`: `mem[a] <- w`, used only by `construct` and `write`; there is no slot at or above the capacity
(R12, R21). -/
def memWrite (m : Memory) (a : Nat) (w : Word) : Memory := if a < capacity then setSlot m a w else m

/-- Write the words of a list of program entries into consecutive slots from index `i` (R102). -/
def populateFrom (m : Memory) (i : Nat) : List Triple → Memory
  | [] => m
  | t :: rest => populateFrom (memWrite m i (assembleTriple t)) (i + 1) rest

/-- The image: what a constructed memory holds after the population with a configuration's program (R120). -/
def image (c : ProgramConfig) : Memory := populateFrom Memory.blank 0 c.program

/-- The list form from index `lo` on: indexes rise and are slots, and no word is the one an unlisted slot holds. -/
def slotsWf (lo : Nat) : Memory → Bool
  | [] => true
  | (a, w) :: rest => decide (lo ≤ a) && decide (a < capacity) && decide (w ≠ nopWord) && slotsWf (a + 1) rest

/-- The canonical form of a memory. -/
def Memory.wf (m : Memory) : Bool := slotsWf 0 m

/-- The block's state right after construction, in place of what it was (R100). -/
def State.constructBlock (s : State) : State := { s with mem := Memory.blank, initDone := initDoneConstructed }

/-- `write` with a configuration's program: the first time the slots of the prefix and the flag, later nothing
(R102). One transition: no state stands between (R48, D10). -/
def State.populateOnce (c : ProgramConfig) (s : State) : State :=
  if s.populationDue then
    { s with mem := populateFrom s.mem 0 c.program, initDone := initDoneWritten }
  else s

/-- Put an operation's output on its port. -/
def State.respond (s : State) (r : Response) : State := { s with response := some r }

/-- Return a stored word, bit for bit, on the read port (R108, R121). -/
def State.deliver (s : State) (w : Word) : State := s.respond (.dataO w)

/-- Begin the first request: it leaves the list, and no output is on a port until the operation gives one. -/
def State.accept (s : State) (rest : List Request) : State := { s with requests := rest, response := none }

/-- The environment asks for one more operation, after those already asked for (R182). -/
def State.submit (s : State) (q : Request) : State := { s with requests := s.requests ++ [q] }

end Sys2Proof.Machine
end

