-- ==== Sys2Proof/Machine/Encoder.lean ====
section
/-! DEFINITION. The meaning of the operation `assemble` (`40_encoder.md` R90 to R93). -/

namespace Sys2Proof.Machine

/-- assemble: the packed word on `word_o`; no state is read or written (R90, R92). -/
def execAssemble (o a b : Int) (s : State) : Host.Outcome State Fault Refusal :=
  .next (s.respond (.wordO (assemble o a b)))

end Sys2Proof.Machine
end

