-- ==== Sys2Proof/Machine/StoredProgram.lean ====
section
/-! DEFINITION. The demonstration program and its range table (`42_stored_program.md` R120 to R130, `43_symbol_table.md`
R141), the derivation of a program and its ranges from one labelled list (R149), and the agreement of positions, targets
and ranges (R203). -/

namespace Sys2Proof.Machine

/-- The triple of a jump or call: opcode `op`, target `t` in the field `slot`, `x` in the other (R121, R122). -/
def targetTriple (op : Byte) (slot : OperandSlot) (t x : Byte) : Triple :=
  match slot with
  | .operand1 => tripleOfFields op t x
  | .operand2 => tripleOfFields op x t

/-- The entry of the demonstration program at an address: a jump to 8 at 0, a call of 18 at 8, elsewhere fields the
source does not give (R121, R122, R127, R128). -/
def demoTriple (p : Params) (x y : Byte) (free : Nat → Byte × Byte × Byte) (i : Nat) : Triple :=
  if i = 0 then targetTriple p.opJmp p.jmpTargetSlot 8 x
  else if i = 8 then targetTriple p.opCall p.callTargetSlot 18 y
  else tripleOfFields (free i).1 (free i).2.1 (free i).2.2

/-- `PROGRAM` for given values of everything the source leaves open (R120). -/
def demoProgram (p : Params) (x y : Byte) (free : Nat → Byte × Byte × Byte) : List Triple :=
  (List.range programLen).map (demoTriple p x y free)

/-- `RANGES`, in order (R141). -/
def demoRanges : List SubroutineRange :=
  [⟨0, 8, "RESET_vect"⟩, ⟨8, 9, "main"⟩, ⟨9, 13, "main_loop"⟩, ⟨13, 18, "led_blink"⟩, ⟨18, 21, "setup"⟩,
    ⟨21, 24, "init_ports"⟩, ⟨24, 30, "init_registers"⟩]

/-- The demonstration program with its ranges, for given values of everything the source leaves open. -/
def demoConfigOf (p : Params) (x y : Byte) (free : Nat → Byte × Byte × Byte) : ProgramConfig :=
  { program := demoProgram p x y free, ranges := demoRanges,
    fits := by simp [demoProgram, programLen, capacity] }

/-- The configuration of this machine: the demonstration program over the free values of `Config`. -/
def demoConfig : ProgramConfig :=
  demoConfigOf Config.params Config.jmpOther Config.callOther Config.programFields

/-- The symbolic address constant of a routine: the start of the range of that name (R81). -/
def labelAddress (ranges : List SubroutineRange) (name : String) : Option Nat :=
  (ranges.find? fun r => r.name == name).map (·.start)

/-- Where the label at or after index `i` of a labelled list stands, or the list's end. -/
def nextLabel {α : Type} (i : Nat) : List (Option String × α) → Nat
  | [] => i
  | (some _, _) :: _ => i
  | (none, _) :: rest => nextLabel (i + 1) rest

/-- One range per labelled position, up to the next labelled position or the end of the list (R149). -/
def rangesFrom {α : Type} (i : Nat) : List (Option String × α) → List SubroutineRange
  | [] => []
  | (some name, _) :: rest => ⟨i, nextLabel (i + 1) rest, name⟩ :: rangesFrom (i + 1) rest
  | (none, _) :: rest => rangesFrom (i + 1) rest

/-- Program and ranges from one list of labelled entries, refused if it does not fit the memory (R105, R149). DESIGN CHOICE
(log 16): a list whose first entries have no label is taken; its ranges then leave those addresses out, so do not
partition the program, and their name is the sentinel. -/
def configOfLabelled (entries : List (Option String × Triple)) : Option ProgramConfig :=
  ProgramConfig.make? (entries.map (·.2)) (rangesFrom 0 entries)

/-- The triple of a source item: the target of a jump or call is the start of its label's range, and a label that names no
range gives none. DESIGN CHOICE (log 24). -/
def resolveItem (p : Params) (ranges : List SubroutineRange) : SourceItem → Option Triple
  | .fields t => some t
  | .jump l x => (labelAddress ranges l).map fun a => targetTriple p.opJmp p.jmpTargetSlot (BitVec.ofNat 8 a) x
  | .call l y => (labelAddress ranges l).map fun a => targetTriple p.opCall p.callTargetSlot (BitVec.ofNat 8 a) y

/-- The triples of all items of a source list, if every label they use names a range. -/
def resolveAll (p : Params) (ranges : List SubroutineRange) : List (Option String × SourceItem) → Option (List Triple)
  | [] => some []
  | (_, item) :: rest =>
    match resolveItem p ranges item, resolveAll p ranges rest with
    | some t, some ts => some (t :: ts)
    | _, _ => none

/-- Positions, jump and call targets, and the range table, all three derived from one list of labelled source items (R149,
R203). Refused if a label names no entry (DESIGN CHOICE, log 24) or the list does not fit the memory (R105). -/
def configOfSource (p : Params) (entries : List (Option String × SourceItem)) : Option ProgramConfig :=
  match resolveAll p (rangesFrom 0 entries) entries with
  | some program => ProgramConfig.make? program (rangesFrom 0 entries)
  | none => none

/-- The label of the demonstration program's entry at an address: the names of R141 at the starts of their ranges. -/
def demoLabel (i : Nat) : Option String :=
  if i = 0 then some "RESET_vect" else if i = 8 then some "main" else if i = 9 then some "main_loop"
  else if i = 13 then some "led_blink" else if i = 18 then some "setup" else if i = 21 then some "init_ports"
  else if i = 24 then some "init_registers" else none

/-- The demonstration program's instruction at an address, its two known targets written as labels (R81). -/
def demoItem (x y : Byte) (free : Nat → Byte × Byte × Byte) (i : Nat) : SourceItem :=
  if i = 0 then .jump "main" x
  else if i = 8 then .call "setup" y
  else .fields (tripleOfFields (free i).1 (free i).2.1 (free i).2.2)

/-- The demonstration program as one labelled source list. -/
def demoSource (x y : Byte) (free : Nat → Byte × Byte × Byte) : List (Option String × SourceItem) :=
  (List.range programLen).map fun i => (demoLabel i, demoItem x y free i)

/-- The ranges follow one another without a gap from `lo` to `stop` (R142). -/
def rangesCover (lo stop : Nat) : List SubroutineRange → Bool
  | [] => decide (lo = stop)
  | r :: rest => decide (r.start = lo) && decide (r.start < r.stop) && rangesCover r.stop stop rest

/-- The address is the start of a range, so some label's symbolic address constant (R81). -/
def isLabelAddress (ranges : List SubroutineRange) (t : Byte) : Bool := ranges.any fun r => r.start == t.toNat

/-- The target of an entry that is a jump or a call is a label's address; other entries have no target (R203). -/
def entryAgrees (p : Params) (ranges : List SubroutineRange) (t : Triple) : Bool :=
  match decodeWord p (assembleTriple t) with
  | .jmp a _ => isLabelAddress ranges a
  | .call a _ => isLabelAddress ranges a
  | .any _ _ _ => true
  | .nop => true
  | .assemble _ _ _ => true
  | .construct => true
  | .write => true
  | .read _ => true
  | .subroutineName _ => true

/-- THE NAMED PREMISE of R203: positions, jump and call targets and the range table of a configuration are in step. The
block checks none of it, so `ProgramConfig` does not require it. -/
def labelsAgree (p : Params) (c : ProgramConfig) : Bool :=
  rangesCover 0 c.program.length c.ranges && c.program.all (entryAgrees p c.ranges)

end Sys2Proof.Machine
end

