-- ==== Sys2Proof/Machine/ProgramMemory.lean ====
section
/-! DEFINITION. The meanings of `construct`, `write` and `read` (`41_program_memory.md` R100 to R111). -/

namespace Sys2Proof.Machine

/-- construct: all slots 0 and the flag 0 (R100). -/
def execConstruct (s : State) : Host.Outcome State Fault Refusal :=
  .next s.constructBlock

/-- write: the population, the first time only; no output (R102, R104). -/
def execWrite (s : State) : Host.Outcome State Fault Refusal :=
  .next (s.populateOnce demoConfig)

/-- read: the word at the address on `data_o`, or 0 at and above the capacity; no state is written (R106). -/
def execRead (a : Nat) (s : State) : Host.Outcome State Fault Refusal :=
  .next (s.respond (.dataO (memRead s.mem a)))

end Sys2Proof.Machine
end

