-- ==== Sys2Proof/Machine/StoredWords.lean ====
section
/-! DEFINITION. The meanings of the word rows ANY, NOP, JMP, CALL at this block. To the block a word is data: "stored by
`write` and returned by `read` as data" (`42_stored_program.md` R121, R122, R123), and the block transfers control
nowhere (R129). So a fetched word is returned on the read port with exactly its fields, and nothing else changes. -/

namespace Sys2Proof.Machine

/-- ANY: returned uninterpreted (R78, R108). -/
def execAny (o a b : Byte) (s : State) : Host.Outcome State Fault Refusal :=
  .next (s.deliver (packWord o a b))

/-- NOP: the no-op word is returned (R123). -/
def execNop (s : State) : Host.Outcome State Fault Refusal :=
  .next (s.deliver nopWord)

/-- JMP: the jump word is returned; the external engine follows its target (R121, R129). -/
def execJmp (t x : Byte) (s : State) : Host.Outcome State Fault Refusal :=
  .next (s.deliver (targetWord Config.params.opJmp Config.params.jmpTargetSlot t x))

/-- CALL: the call word is returned; the external engine follows its target and keeps the return address (R122, R129). -/
def execCall (t y : Byte) (s : State) : Host.Outcome State Fault Refusal :=
  .next (s.deliver (targetWord Config.params.opCall Config.params.callTargetSlot t y))

end Sys2Proof.Machine
end

