-- ==== Sys2Proof/Machine/SymbolTable.lean ====
section
/-! DEFINITION. The debug lookup `subroutine_name` (`43_symbol_table.md` R143 to R148). -/

namespace Sys2Proof.Machine

/-- The range contains the address: start inclusive, end exclusive (R141, R143). -/
def rangeContains (r : SubroutineRange) (a : Nat) : Bool := decide (r.start ≤ a) && decide (a < r.stop)

/-- The name of the first range that contains the address, else the sentinel (R143). DESIGN CHOICE (log 16): over a table
that overlaps, is unsorted or does not partition the program, the scan in list order stands (U12). -/
def lookupName : List SubroutineRange → Nat → String
  | [], _ => unknownName
  | r :: rest, a => if rangeContains r a then r.name else lookupName rest a

/-- subroutine_name: the name on the debug output; neither the memory nor the flag is read (R143, R147). -/
def execSubroutineName (a : Nat) (s : State) : Host.Outcome State Fault Refusal :=
  .next (s.respond (.nameO (lookupName demoConfig.ranges a)))

end Sys2Proof.Machine
end

