-- ==== Sys2Proof/Machine/Dispatch.lean ====
section
/-! DEFINITION. One arm per row of the opcode table. -/

namespace Sys2Proof.Machine

def exec (i : Instr) (s : State) : Host.Outcome State Fault Refusal :=
  match i with
  | .any o a b => Sys2Proof.Machine.execAny o a b s
  | .nop => Sys2Proof.Machine.execNop s
  | .jmp t x => Sys2Proof.Machine.execJmp t x s
  | .call t y => Sys2Proof.Machine.execCall t y s
  | .assemble o a b => Sys2Proof.Machine.execAssemble o a b s
  | .construct => Sys2Proof.Machine.execConstruct s
  | .write => Sys2Proof.Machine.execWrite s
  | .read a => Sys2Proof.Machine.execRead a s
  | .subroutineName a => Sys2Proof.Machine.execSubroutineName a s

end Sys2Proof.Machine
end

