-- ==== Sys2Proof/Machine/Requests.lean ====
section
/-! DEFINITION. From a request of an agent to the instruction a step runs. -/

namespace Sys2Proof.Machine

/-- The row of the opcode table an operation is. -/
def operationInstr : Operation → Instr
  | .assemble o a b => .assemble o a b
  | .write => .write
  | .read a => .read a
  | .subroutineName a => .subroutineName a

/-- Instruction fetch: the instruction word at an address, named by its row of the opcode table (R44, R106). -/
def fetchInstr (m : Memory) (a : Nat) : Instr := decodeWord Config.params (memRead m a)

/-- What a step runs for a request. A `read` by the fetch engine is an instruction fetch (R44, R176): the fetched word
runs, which at this block means that it is returned. Every other request is the operation asked for. -/
def requestInstr (m : Memory) (q : Request) : Instr :=
  match q.agent, q.operation with
  | .fetchEngine, .read a => fetchInstr m a
  | _, op => operationInstr op

/-- The address at which the model places a word for its next step to fetch: the reset vector (R51). -/
def resetVector : Nat := 0

/-- The state with a word at the reset vector and a fetch of it as its first request. -/
def State.placeFetch (s : State) (w : Word) : State :=
  { s with
    mem := memWrite s.mem resetVector w,
    requests := { agent := .fetchEngine, operation := .read resetVector } :: s.requests }

end Sys2Proof.Machine
end

