-- ==== Sys2Proof/Machine/Step.lean ====
section
/-! DEFINITION. One step: the first operation asked for, as one atomic transition (`00_scope.md` R13). -/

namespace Sys2Proof.Machine

/-- One step. The block is passive (R176): with no request it stays as it is; else it does the first one. -/
def step (s : State) : Host.Outcome State Fault Refusal :=
  match s.requests with
  | [] => .next s
  | q :: rest => exec (requestInstr s.mem q) (s.accept rest)

/-- The state whose next step fetches and runs the word with the given bits; bits that are no word change nothing. -/
def State.withFetchWord (s : State) (nbits w : Nat) : State :=
  match wordOfBits nbits w with
  | .ok word => s.placeFetch word
  | .error _ => s

end Sys2Proof.Machine
end

