-- ==== Sys2Proof/Safety.lean ====
section
/-! DEFINITION. What counts as a proper use of the block and which states a proper life of it reaches: the lifecycle
(`10_state.md` R34), the access rights (`60_exceptions.md` R172) and the boot order (`70_reset_and_hazards.md` R194). -/

namespace Sys2Proof.Machine

/-- The state is in one of the two conditions of R34: constructed, with every slot 0, or initialized, with the image. -/
def State.InLifecycle (s : State) : Prop :=
  (s.initDone = false ∧ s.mem = Memory.blank) ∨ (s.initDone = true ∧ s.mem = image demoConfig)

/-- The operations an agent may ask for (R172; the encoder is internal and exposed for testing, R98). The block checks
no sender; this is the environment's duty. -/
def permitted : Agent → Operation → Bool
  | .bootstrapOwner, .write => true
  | .bootstrapOwner, .assemble _ _ _ => true
  | .fetchEngine, .read _ => true
  | .debugger, .read _ => true
  | .debugger, .subroutineName _ => true
  | _, _ => false

/-- From a flag value on, no `read` and no `subroutine_name` stands before the first `write` (R55, R194). -/
def bootOrdered : Bool → List Request → Bool
  | true, _ => true
  | false, [] => true
  | false, q :: rest =>
    match q.operation with
    | .write => true
    | .assemble _ _ _ => bootOrdered false rest
    | .read _ => false
    | .subroutineName _ => false

/-- The boot order holds of what is still asked for. -/
def State.BootOrdered (s : State) : Prop := bootOrdered s.initDone s.requests = true

/-- Every request still to be done is one its agent may make. -/
def State.AllPermitted (s : State) : Prop := ∀ q ∈ s.requests, permitted q.agent q.operation = true

end Sys2Proof.Machine
end

