-- ==== Sys2Proof/Certificates/Slice0/Obligations.lean ====
section
/-! DEFINITION. The statements for the provers. `Host.Core.run Sys2Proof.core n s` is `n` steps from `s`. An operation's
output stands in the model's own field `response` (log 3), the operations asked for in its own field `requests` (log 2). -/

open Sys2Proof Sys2Proof.Machine

/-! ## The word format and the encoder -/

/-- R69: the fields of an encoded triple are its components, every word is the encoding of its own fields, and of
exactly one triple. -/
def Obligations.FieldRoundTrip : Prop :=
  (∀ o a b : Byte,
    opcodeOf (assemble o.toNat a.toNat b.toNat) = o ∧ operand1Of (assemble o.toNat a.toNat b.toNat) = a ∧
      operand2Of (assemble o.toNat a.toNat b.toNat) = b) ∧
  (∀ w : Word, assemble (opcodeOf w).toNat (operand1Of w).toNat (operand2Of w).toNat = w) ∧
  (∀ w : Word, ∃! f : Byte × Byte × Byte, assemble f.1.toNat f.2.1.toNat f.2.2.toNat = w)

/-- R67: the number a word is, as a sum and as the source's OR of shifts, and its bounds. -/
def Obligations.WordNumericValue : Prop :=
  ∀ o a b : Byte,
    (assemble o.toNat a.toNat b.toNat).toNat = o.toNat * 65536 + a.toNat * 256 + b.toNat ∧
    (assemble o.toNat a.toNat b.toNat).toNat = (o.toNat <<< 16) ||| (a.toNat <<< 8) ||| b.toNat ∧
    (assemble o.toNat a.toNat b.toNat).toNat ≤ 16777215

/-- R68: the three extraction functions, as bits and as numbers. -/
def Obligations.FieldExtraction : Prop :=
  ∀ w : Word,
    ((opcodeOf w).toNat = w.toNat / 65536 ∧ ∀ i < 8, (opcodeOf w).getLsbD i = w.getLsbD (16 + i)) ∧
    ((operand1Of w).toNat = w.toNat / 256 % 256 ∧ ∀ i < 8, (operand1Of w).getLsbD i = w.getLsbD (8 + i)) ∧
    ((operand2Of w).toNat = w.toNat % 256 ∧ ∀ i < 8, (operand2Of w).getLsbD i = w.getLsbD i)

/-- R93: the field value of an input of any width and sign, the rule's examples, and that no input is rejected. That
inputs are integers, so may be negative, is the model's choice (log 11); the values of negative ones, all `trunc8` of an
`Int` below 0, `toInt`, -1 and -128, are those of the spec's decision D5. -/
def Obligations.TruncationModulo : Prop :=
  (∀ v : Int, ((trunc8 v).toNat : Int) = v % 256) ∧
  (∀ (n : Nat) (v : BitVec n), 8 ≤ n → trunc8 v.toNat = v.setWidth 8 ∧ trunc8 v.toInt = v.setWidth 8) ∧
  (trunc8 256 = 0 ∧ trunc8 257 = 1 ∧ trunc8 511 = 255 ∧ trunc8 0x1234 = 0x34 ∧ trunc8 (-1) = 255 ∧
    trunc8 (-128) = 128) ∧
  (∀ (o a b : Int) (s : State), exec (.assemble o a b) s = exec (.assemble (o % 256) (a % 256) (b % 256)) s ∧
    ∃ t, exec (.assemble o a b) s = .next t)

/-- R90: `assemble`'s result for all inputs, with nothing else changed, and the rule's corner cases and example. R90's
inputs are unsigned; that they are any integers here is the model's choice (log 11), and of negative ones the result is
that of R93 and the spec's decision D5. -/
def Obligations.AssembleResult : Prop :=
  (∀ (o a b : Int) (s : State), ∃ w : Word,
    exec (.assemble o a b) s = .next { s with response := some (.wordO w) } ∧
    (w.toNat : Int) = (o % 256) * 65536 + (a % 256) * 256 + b % 256 ∧
    w.toNat = ((o % 256).toNat <<< 16) ||| ((a % 256).toNat <<< 8) ||| (b % 256).toNat) ∧
  assemble 0 0 0 = 0x000000 ∧ (assemble 255 255 255).toNat = 16777215 ∧
  (∀ x y : Int, assemble 256 x y = assemble 0 x y ∧ assemble x 256 y = assemble x 0 y ∧
    assemble x y 256 = assemble x y 0) ∧
  (assemble 128 0 0).toNat = 8388608 ∧ assemble 0x12 0x34 0x56 = 0x123456

/-- R94: the range of the result in any container, and that every word is the result of exactly one triple. -/
def Obligations.ResultCoverage : Prop :=
  (∀ o a b : Int, (assemble o a b).toNat ≤ 2 ^ 24 - 1) ∧
  (∀ (p : Params) (o a b : Int) (i : Nat), 24 ≤ i → (container p (assemble o a b)).getLsbD i = false) ∧
  (∀ n : Nat, n ≤ 2 ^ 24 - 1 → ∃! f : Byte × Byte × Byte, (assemble f.1.toNat f.2.1.toNat f.2.2.toNat).toNat = n)

/-- R96: `assemble` of 8-bit inputs preserves lexicographic order. -/
def Obligations.OrderPreserved : Prop :=
  ∀ o a b o' a' b' : Byte,
    (assemble o.toNat a.toNat b.toNat).toNat < (assemble o'.toNat a'.toNat b'.toNat).toNat ↔
      o.toNat < o'.toNat ∨ (o = o' ∧ (a.toNat < a'.toNat ∨ (a = a' ∧ b.toNat < b'.toNat)))

/-- R97: changing one input changes that field's bits of the word and no other. -/
def Obligations.FieldIndependence : Prop :=
  ∀ o a b v : Byte,
    assemble o.toNat a.toNat b.toNat ^^^ assemble v.toNat a.toNat b.toNat = (o ^^^ v).setWidth 24 <<< 16 ∧
    assemble o.toNat a.toNat b.toNat ^^^ assemble o.toNat v.toNat b.toNat = (a ^^^ v).setWidth 24 <<< 8 ∧
    assemble o.toNat a.toNat b.toNat ^^^ assemble o.toNat a.toNat v.toNat = (b ^^^ v).setWidth 24

/-- R22, R70: a word in its container is the same number, with the bits above it 0. -/
def Obligations.WideContainer : Prop :=
  ∀ (p : Params) (w : Word),
    24 ≤ p.containerW ∧ (container p w).toNat = w.toNat ∧ (∀ i, 24 ≤ i → (container p w).getLsbD i = false) ∧
      (container p w).setWidth 24 = w

/-- R72 (its arithmetic is D19's): the halves of a 16-bit value, and the value from its halves. -/
def Obligations.SixteenBitSplit : Prop :=
  ∀ v : BitVec 16,
    (highByte v).toNat = v.toNat / 256 ∧ (lowByte v).toNat = v.toNat % 256 ∧
      (highByte v).toNat * 256 + (lowByte v).toNat = v.toNat

/-! ## Decoding and encoding the rows of the opcode table -/

/-- Decoding the word of a well-formed instruction gives it back, whatever the open parameters are. -/
def Obligations.DecodeEncodeWords : Prop :=
  ∀ (p : Params) (i : Instr) (w : Word), i.wellFormed p = true → encodeWord p i = some w → decodeWord p w = i

/-- Every word decodes to a well-formed instruction of which it is the encoding: none is illegal (R78). -/
def Obligations.EncodeDecodeWords : Prop :=
  ∀ (p : Params) (w : Word), (decodeWord p w).wellFormed p = true ∧ encodeWord p (decodeWord p w) = some w

/-- Words written out from R65 and R123: the no-op word, and words under three choices of the open parameters. -/
def Obligations.DecodeSanityWords : Prop :=
  decodeTableWord 24 0b000000000000000000000000 = some .nop ∧
  decodeWord ⟨0x11, 0x22, .operand1, .operand1, 0, 0, 0⟩ 0b000100010000100000000101 = .jmp 8 5 ∧
  decodeWord ⟨0x11, 0x22, .operand1, .operand2, 0, 0, 0⟩ 0b001000100000010100010010 = .call 18 5 ∧
  decodeWord ⟨0x11, 0x22, .operand1, .operand1, 0, 0, 0⟩ 0b000100100011010001010110 = .any 0x12 0x34 0x56

/-- R66: every instruction is one word of 24 bits: fewer or more bits are refused by name, and any 24 bits
are the instruction the decoder reads from that word. -/
def Obligations.EveryInstructionIsOneWord : Prop :=
  (∀ (p : Params) (nbits w : Nat), nbits < 24 → decodeBits p nbits w = .error (.shorterThanAWord nbits)) ∧
  (∀ (p : Params) (nbits w : Nat), 24 < nbits → decodeBits p nbits w = .error (.longerThanAWord nbits)) ∧
  (∀ (p : Params) (w : Word), decodeBits p 24 w.toNat = .ok (decodeWord p w)) ∧
  (∀ (nbits w : Nat), (decodeTableWord nbits w).isSome = true ↔ nbits = 24)

/-! ## Construction and reset -/

/-- R35, R100, R191: the values after construction, at reset and after `construct` in any state. That the flag is 0 at
reset is derived, by R35 from R24, and not in the source's words (log 20, DEDUCED, unsafe if wrong). -/
def Obligations.ResetValues : Prop :=
  ((∀ a, a ≤ 255 → memRead State.reset.mem a = 0) ∧ State.reset.initDone = false) ∧
  (∀ s t : State, exec .construct s = .next t → (∀ a, a ≤ 255 → memRead t.mem a = 0) ∧ t.initDone = false)

/-- R100: `construct` completes in every state: every slot 0, the flag 0, the model's own fields as before; and the
memory is that of the reset state. -/
def Obligations.ConstructCompletes : Prop :=
  ∀ s : State, ∃ t, exec .construct s = .next t ∧ (∀ a, memRead t.mem a = 0) ∧ t.initDone = false ∧
    t.mem = State.reset.mem ∧ t.requests = s.requests ∧ t.response = s.response

/-- R100, R190: no request runs `construct`, so a step never reconstructs the block. -/
def Obligations.NoRequestConstructs : Prop :=
  ∀ (m : Memory) (q : Request), requestInstr m q ≠ .construct

/-! ## Population -/

/-- R102: the first `write` puts the encoded program into slots 0 to 29, sets the flag and changes nothing else. -/
def Obligations.FirstWritePopulates : Prop :=
  ∀ s : State, s.mem.wf = true → s.initDone = false →
    ∃ t, exec .write s = .next t ∧ t.initDone = true ∧ t.requests = s.requests ∧ t.response = s.response ∧
      (∀ a (h : a < demoConfig.program.length), memRead t.mem a = assembleTriple demoConfig.program[a]) ∧
      (∀ a, programLen ≤ a → memRead t.mem a = memRead s.mem a) ∧ demoConfig.program.length = programLen

/-- R103: `write` after `write` changes nothing, and with the flag set `write` changes nothing. -/
def Obligations.WriteIdempotent : Prop :=
  (∀ s : State, ∃ t, exec .write s = .next t ∧ exec .write t = .next t) ∧
  (∀ s : State, s.initDone = true → exec .write s = .next s)

/-- R104: `write` of a constructed block, one transition: its whole result, and no output. -/
def Obligations.WriteFullResult : Prop :=
  ∀ s : State, s.mem = Memory.blank → s.initDone = false →
    ∃ t, exec .write s = .next t ∧ t.response = s.response ∧ t.requests = s.requests ∧ t.initDone = true ∧
      (∀ i (h : i < demoConfig.program.length), memRead t.mem i = assembleTriple demoConfig.program[i]) ∧
      (∀ i, demoConfig.program.length ≤ i → i ≤ 255 → memRead t.mem i = 0)

/-- The same of any program that fits (R104, D7): the general population. -/
def Obligations.GeneralProgramPopulation : Prop :=
  ∀ (c : ProgramConfig) (s : State), s.mem.wf = true → s.initDone = false →
    (s.populateOnce c).initDone = true ∧ (s.populateOnce c).mem.wf = true ∧
    (∀ i (h : i < c.program.length), memRead (s.populateOnce c).mem i = assembleTriple c.program[i]) ∧
    (∀ i, c.program.length ≤ i → memRead (s.populateOnce c).mem i = memRead s.mem i) ∧
    (s.populateOnce c).populateOnce c = s.populateOnce c

/-- R105: a program that does not fit is no configuration; one that fits is taken as it is, with any range table. That a
longer program is refused is the spec's decision D13 and the model's choice (log 15), the source being silent; that a
range table which breaks R142 is taken is the model's choice too (log 16), where U12 lets a model refuse it. -/
def Obligations.LongProgramRefused : Prop :=
  (∀ ts rs, 256 < ts.length → ProgramConfig.make? ts rs = none) ∧
  (∀ ts rs, ts.length ≤ 256 → ∃ c, ProgramConfig.make? ts rs = some c ∧ c.program = ts ∧ c.ranges = rs) ∧
  demoConfig.program.length = 30

/-! ## Reading -/

/-- R106: `read` completes in every state with the slot below the capacity and 0 from it on, and changes nothing but
its output. -/
def Obligations.ReadResult : Prop :=
  ∀ (a : Nat) (s : State), ∃ w : Word, exec (.read a) s = .next { s with response := some (.dataO w) } ∧
    (a < 256 → w = slotWord s.mem a) ∧ (256 ≤ a → w = 0)

/-- R107: before the first `write` every address reads 0. The spec's decision D6 allows this or a refusal; that such a
read completes with 0 is the model's choice between the two (log 13). -/
def Obligations.ReadBeforeWrite : Prop :=
  ∀ (s : State) (a : Nat), s.InLifecycle → s.initDone = false →
    exec (.read a) s = .next { s with response := some (.dataO 0) }

/-- R108: after `write`, a slot of the prefix reads as the encoding of its program entry, whose fields are the entry's
truncated components. -/
def Obligations.ReadReturnsProgram : Prop :=
  ∀ (s : State) (i : Nat) (h : i < demoConfig.program.length), s.InLifecycle → s.initDone = true →
    ∃ w : Word, exec (.read i) s = .next { s with response := some (.dataO w) } ∧
      w = assembleTriple demoConfig.program[i] ∧ opcodeOf w = trunc8 demoConfig.program[i].opcode ∧
      operand1Of w = trunc8 demoConfig.program[i].operand1 ∧ operand2Of w = trunc8 demoConfig.program[i].operand2

/-- R124: slots 30 to 255 read 0 after `write`, and no step changes them in any state with a canonical memory. -/
def Obligations.TailReadsZero : Prop :=
  (∀ (s : State) (a : Nat), s.InLifecycle → s.initDone = true → 30 ≤ a → a ≤ 255 →
    exec (.read a) s = .next { s with response := some (.dataO 0) }) ∧
  (∀ (s t : State) (a : Nat), s.mem.wf = true → step s = .next t → 30 ≤ a →
    memRead t.mem a = memRead s.mem a)

/-- R79, R162: an out-of-range read and the read of a slot that holds the no-op leave the same state. -/
def Obligations.FallbackIndistinguishable : Prop :=
  ∀ (s : State) (a b : Nat), 256 ≤ a → b < 256 → slotWord s.mem b = 0 →
    exec (.read a) s = exec (.read b) s

/-- R121: once populated, address 0 reads as a jump to 8: opcode `OP_JMP`, target field 8, not 0, and it decodes so. -/
def Obligations.JumpAtZero : Prop :=
  ∀ s : State, s.InLifecycle → s.initDone = true →
    ∃ w : Word, exec (.read 0) s = .next { s with response := some (.dataO w) } ∧
      opcodeOf w = Config.params.opJmp ∧ targetOf Config.params.jmpTargetSlot w = 8 ∧ w ≠ 0 ∧
      fetchInstr s.mem 0 = .jmp 8 Config.jmpOther

/-- R122: once populated, address 8 reads as a call of 18: opcode `OP_CALL`, target field 18, not 0; and it decodes so,
unless the two open opcodes are equal (R128 does not exclude it). -/
def Obligations.CallAtEight : Prop :=
  ∀ s : State, s.InLifecycle → s.initDone = true →
    ∃ w : Word, exec (.read 8) s = .next { s with response := some (.dataO w) } ∧
      opcodeOf w = Config.params.opCall ∧ targetOf Config.params.callTargetSlot w = 18 ∧ w ≠ 0 ∧
      (fetchInstr s.mem 8 = .call 18 Config.callOther ∨ Config.params.opCall = Config.params.opJmp)

/-- R127: the four conditions on the demonstration program hold of the model's, for every value of what is open. -/
def Obligations.DemoProgramWellFormed : Prop :=
  ∀ (p : Params) (x y : Byte) (free : Nat → Byte × Byte × Byte),
    (demoProgram p x y free).length = 30 ∧
    (∀ t ∈ demoProgram p x y free, (0 ≤ t.opcode ∧ t.opcode ≤ 255) ∧ (0 ≤ t.operand1 ∧ t.operand1 ≤ 255) ∧
      (0 ≤ t.operand2 ∧ t.operand2 ≤ 255)) ∧
    (∃ t, (demoProgram p x y free)[0]? = some t ∧ t.opcode = (p.opJmp.toNat : Int) ∧
      (p.jmpTargetSlot = .operand1 → t.operand1 = 8) ∧ (p.jmpTargetSlot = .operand2 → t.operand2 = 8)) ∧
    (∃ t, (demoProgram p x y free)[8]? = some t ∧ t.opcode = (p.opCall.toNat : Int) ∧
      (p.callTargetSlot = .operand1 → t.operand1 = 18) ∧ (p.callTargetSlot = .operand2 → t.operand2 = 18))

/-! ## The word rows and the step -/

/-- R121, R122, R123, R78: each word row completes in every state; the word returned has the row's fields, and nothing
but the output changes. What the block's part of a fetched word is, is the model's reading (log 6). -/
def Obligations.StoredWordsReturned : Prop :=
  ∀ s : State,
    (∀ o a b : Byte, ∃ w : Word, exec (.any o a b) s = .next { s with response := some (.dataO w) } ∧
      opcodeOf w = o ∧ operand1Of w = a ∧ operand2Of w = b) ∧
    (exec .nop s = .next { s with response := some (.dataO 0) }) ∧
    (∀ t x : Byte, ∃ w : Word, exec (.jmp t x) s = .next { s with response := some (.dataO w) } ∧
      opcodeOf w = Config.params.opJmp ∧ targetOf Config.params.jmpTargetSlot w = t ∧
      otherOf Config.params.jmpTargetSlot w = x) ∧
    (∀ t y : Byte, ∃ w : Word, exec (.call t y) s = .next { s with response := some (.dataO w) } ∧
      opcodeOf w = Config.params.opCall ∧ targetOf Config.params.callTargetSlot w = t ∧
      otherOf Config.params.callTargetSlot w = y)

/-- A step on a fetch runs the instruction that the word at the address decodes to, in the state with the request gone
and no output yet. -/
def Obligations.StepRunsFetchedWord : Prop :=
  ∀ (s : State) (a : Nat) (rest : List Request), s.requests = ⟨.fetchEngine, .read a⟩ :: rest →
    step s = exec (decodeWord Config.params (memRead s.mem a)) { s with requests := rest, response := none }

/-- A step on any other request runs the operation asked for; with no request the state stays; and a request made of a
block with none is the one the next step performs. -/
def Obligations.StepRunsOperation : Prop :=
  ∀ s : State,
    (s.requests = [] → step s = .next s) ∧
    (∀ q, s.requests = [] →
      step (s.submit q) = exec (requestInstr s.mem q) { s with requests := [], response := none }) ∧
    (∀ ag rest, s.requests = ⟨ag, .write⟩ :: rest →
      step s = exec .write { s with requests := rest, response := none }) ∧
    (∀ ag a rest, s.requests = ⟨ag, .subroutineName a⟩ :: rest →
      step s = exec (.subroutineName a) { s with requests := rest, response := none }) ∧
    (∀ ag o a b rest, s.requests = ⟨ag, .assemble o a b⟩ :: rest →
      step s = exec (.assemble o a b) { s with requests := rest, response := none }) ∧
    (∀ ag a rest, ag ≠ .fetchEngine → s.requests = ⟨ag, .read a⟩ :: rest →
      step s = exec (.read a) { s with requests := rest, response := none })

/-- R44: instruction fetch is `read`. Whoever asks, the step returns the word at the address, bit for bit, and changes
neither the memory nor the flag. -/
def Obligations.FetchIsRead : Prop :=
  ∀ (s : State) (ag : Agent) (a : Nat) (rest : List Request), s.requests = ⟨ag, .read a⟩ :: rest →
    step s = .next { s with requests := rest, response := some (.dataO (memRead s.mem a)) }

/-- R172: who asks does not matter: requests that differ in their agent alone give the same step. -/
def Obligations.SenderDoesNotMatter : Prop :=
  ∀ (s : State) (ag ag' : Agent) (op : Operation) (rest : List Request),
    step { s with requests := ⟨ag, op⟩ :: rest } = step { s with requests := ⟨ag', op⟩ :: rest }

/-! ## The symbol table -/

/-- R145: `subroutine_name` completes in every state with the name of the address, and changes nothing but its
output. -/
def Obligations.NameByAddress : Prop :=
  ∀ (a : Nat) (s : State),
    exec (.subroutineName a) s = .next { s with response := some (.nameO
      (if a ≤ 7 then "RESET_vect" else if a = 8 then "main" else if a ≤ 12 then "main_loop"
       else if a ≤ 17 then "led_blink" else if a ≤ 20 then "setup" else if a ≤ 23 then "init_ports"
       else if a ≤ 29 then "init_registers" else "Unknown")) }

/-- R142: the invariants of the range table. -/
def Obligations.RangePartition : Prop :=
  (∀ r ∈ demoRanges, r.start < r.stop) ∧
  (∀ k r r', demoRanges[k]? = some r → demoRanges[k + 1]? = some r' → r.stop = r'.start) ∧
  (demoRanges.head?.map (·.start) = some 0 ∧ demoRanges.getLast?.map (·.stop) = some 30) ∧
  (demoRanges.map fun r => r.stop - r.start) = [8, 1, 4, 5, 3, 3, 6] ∧
  (demoRanges.map fun r => r.stop - r.start).sum = 30 ∧
  (∀ a, a < 30 → ∃! r, r ∈ demoRanges ∧ r.start ≤ a ∧ a < r.stop) ∧
  (∀ a, 30 ≤ a → ∀ r ∈ demoRanges, ¬(r.start ≤ a ∧ a < r.stop)) ∧
  demoConfig.ranges = demoRanges

/-- R144: over any table in which no address lies in two ranges, so over `RANGES`, the order of the scan does not
matter; over any table at all the first match in list order wins. For a table that breaks
R142 this last clause is the model's choice (log 16), one of the two treatments U12 allows. -/
def Obligations.ScanOrderIrrelevant : Prop :=
  (∀ (rs rs' : List SubroutineRange) (a : Nat), rs.Perm rs' →
    (∀ r ∈ rs, ∀ r' ∈ rs, rangeContains r a = true → rangeContains r' a = true → r = r') →
    lookupName rs a = lookupName rs' a) ∧
  (∀ (a : Nat), ∀ r ∈ demoRanges, ∀ r' ∈ demoRanges, rangeContains r a = true → rangeContains r' a = true → r = r') ∧
  (∀ (before after : List SubroutineRange) (r : SubroutineRange) (a : Nat),
    (∀ r' ∈ before, rangeContains r' a = false) → rangeContains r a = true →
    lookupName (before ++ r :: after) a = r.name)

/-- R147: the name of an address is the same in every two states, so before and after `write`. -/
def Obligations.NameIndependentOfWrite : Prop :=
  ∀ (s s' t t' : State) (a : Nat), exec (.subroutineName a) s = .next t →
    exec (.subroutineName a) s' = .next t' → t.response = t'.response

/-- R149: ranges derived from one labelled list whose first entry is labelled partition the program's addresses, and
each labelled position has its own label's name. -/
def Obligations.DerivedRangesPartition : Prop :=
  ∀ (n0 : String) (t0 : Triple) (rest : List (Option String × Triple)) (c : ProgramConfig),
    configOfLabelled ((some n0, t0) :: rest) = some c →
    c.program = t0 :: rest.map (·.2) ∧
    (∀ a, a < c.program.length → ∃! r, r ∈ c.ranges ∧ r.start ≤ a ∧ a < r.stop) ∧
    (∀ a, c.program.length ≤ a → lookupName c.ranges a = unknownName) ∧
    (∀ i name t, ((some n0, t0) :: rest)[i]? = some (some name, t) → lookupName c.ranges i = name)

/-- R203: the targets of the two known words are the starts of `main` and `setup`; and the demonstration program and its
ranges are what one labelled source list, with these two targets written as labels, derives, for every value of what is
open. -/
def Obligations.TargetsAgreeWithLabels : Prop :=
  (∀ (p : Params) (x y : Byte) (free : Nat → Byte × Byte × Byte),
    configOfSource p (demoSource x y free) = some (demoConfigOf p x y free)) ∧
  labelAddress demoConfig.ranges "main" = some 8 ∧ labelAddress demoConfig.ranges "setup" = some 18 ∧
  targetOf Config.params.jmpTargetSlot (memRead (image demoConfig) 0) = 8 ∧
  targetOf Config.params.callTargetSlot (memRead (image demoConfig) 8) = 18

/-- R149, R203: in a configuration derived from one source list, the target of every jump and call written with a label is
the position of an entry with that label, which is its symbolic address constant and the start of a range of that name;
raw items are taken as they are. That a list with a label that names no entry is refused, and that the first of equal
labels counts, is the model's choice (log 24). -/
def Obligations.SourceTargetsFollowLabels : Prop :=
  ∀ (p : Params) (es : List (Option String × SourceItem)) (c : ProgramConfig), configOfSource p es = some c →
    c.program.length = es.length ∧
    (∀ (i : Nat) (name : String) (item : SourceItem), es[i]? = some (some name, item) → lookupName c.ranges i = name) ∧
    (∀ (i : Nat) (l : Option String) (t : Triple), es[i]? = some (l, .fields t) → c.program[i]? = some t) ∧
    (∀ (i : Nat) (l : Option String) (name : String) (x : Byte), es[i]? = some (l, .jump name x) → ∃ a t item,
      labelAddress c.ranges name = some a ∧ es[a]? = some (some name, item) ∧ c.program[i]? = some t ∧
      opcodeOf (assembleTriple t) = p.opJmp ∧ (targetOf p.jmpTargetSlot (assembleTriple t)).toNat = a ∧
      otherOf p.jmpTargetSlot (assembleTriple t) = x ∧ lookupName c.ranges a = name) ∧
    (∀ (i : Nat) (l : Option String) (name : String) (y : Byte), es[i]? = some (l, .call name y) → ∃ a t item,
      labelAddress c.ranges name = some a ∧ es[a]? = some (some name, item) ∧ c.program[i]? = some t ∧
      opcodeOf (assembleTriple t) = p.opCall ∧ (targetOf p.callTargetSlot (assembleTriple t)).toNat = a ∧
      otherOf p.callTargetSlot (assembleTriple t) = y ∧ lookupName c.ranges a = name)

/-- R203: the named premise. Where labels agree, every jump or call of the image lands inside the program, at the start of
a range; and a configuration derived from one source list whose first entry is labelled and whose raw items are no jump or
call has labels that agree. That the two opcodes differ is a named hypothesis (R128). -/
def Obligations.AgreedTargetsAreLabels : Prop :=
  (∀ (p : Params) (c : ProgramConfig) (a : Nat) (t x : Byte), labelsAgree p c = true →
    (decodeWord p (memRead (image c) a) = .jmp t x ∨ decodeWord p (memRead (image c) a) = .call t x) →
    t.toNat < c.program.length ∧ ∃ r ∈ c.ranges, r.start = t.toNat ∧ lookupName c.ranges t.toNat = r.name) ∧
  (∀ (p : Params) (n0 : String) (item0 : SourceItem) (rest : List (Option String × SourceItem)) (c : ProgramConfig),
    p.opCall ≠ p.opJmp → configOfSource p ((some n0, item0) :: rest) = some c →
    (∀ l t, (l, SourceItem.fields t) ∈ (some n0, item0) :: rest →
      ∀ a x, decodeWord p (assembleTriple t) ≠ .jmp a x ∧ decodeWord p (assembleTriple t) ≠ .call a x) →
    labelsAgree p c = true)

/-! ## The machine as a whole -/

/-- Reset meets the invariants below. -/
def Obligations.ResetMeetsInvariants : Prop :=
  State.reset.mem.wf = true ∧ State.reset.InLifecycle ∧ State.reset.condition = .constructed

/-- Every step keeps the canonical form of the memory: rising indexes below 256, no listed no-op. -/
def Obligations.StepKeepsCanonicalMemory : Prop :=
  ∀ s t : State, s.mem.wf = true → step s = .next t → t.mem.wf = true

/-- R34: every step from a constructed or initialized block leaves it constructed or initialized; an initialized one
stays so, and only a `write` request makes a constructed one initialized. -/
def Obligations.StepKeepsLifecycle : Prop :=
  ∀ s t : State, s.InLifecycle → step s = .next t →
    t.InLifecycle ∧ (s.condition = .initialized → t.condition = .initialized) ∧
    (s.condition = .constructed → t.condition = .initialized →
      ∃ ag rest, s.requests = ⟨ag, .write⟩ :: rest)

/-- R24, R30: the flag is set-only, and set by a `write` request only, in every state. -/
def Obligations.FlagIsSetOnly : Prop :=
  ∀ s t : State, step s = .next t →
    (s.initDone = true → t.initDone = true) ∧
    (∀ ag rest, s.requests = ⟨ag, .write⟩ :: rest → t.initDone = true) ∧
    (t.initDone ≠ s.initDone → ∃ ag rest, s.requests = ⟨ag, .write⟩ :: rest)

/-- R25, R110: a step that changes any slot, or the flag, is the first `write`. -/
def Obligations.OnlyFirstWriteChangesBlock : Prop :=
  ∀ s t : State, step s = .next t → (t.mem ≠ s.mem ∨ t.initDone ≠ s.initDone) →
    s.initDone = false ∧ t.initDone = true ∧ ∃ ag rest, s.requests = ⟨ag, .write⟩ :: rest

/-- R36, R55 (a), R60: once the flag is set no run of any length changes the memory. -/
def Obligations.InitializedMemoryNeverChanges : Prop :=
  ∀ (n : Nat) (s t : State), s.initDone = true → Host.Core.run Sys2Proof.core n s = .next t →
    t.mem = s.mem ∧ t.initDone = true

/-- R49, R109: a run without a `write` changes neither the memory nor the flag. -/
def Obligations.NoWriteNoChange : Prop :=
  ∀ (n : Nat) (s t : State), (∀ q ∈ s.requests.take n, q.operation ≠ .write) →
    Host.Core.run Sys2Proof.core n s = .next t → t.mem = s.mem ∧ t.initDone = s.initDone

/-- R172, R194: a step leaves the environment's duties met: requests all permitted, the boot order kept. -/
def Obligations.StepKeepsDuties : Prop :=
  ∀ s t : State, step s = .next t →
    (s.AllPermitted → t.AllPermitted) ∧ (s.BootOrdered → t.BootOrdered)

/-- R160, R212: every instruction and every run of every length completes, and each step does one request. -/
def Obligations.BlockNeverStops : Prop :=
  (∀ (i : Instr) (s : State), ∃ t, exec i s = .next t) ∧
  (∀ (n : Nat) (s : State), ∃ t, Host.Core.run Sys2Proof.core n s = .next t ∧ t.requests = s.requests.drop n)

/-- R48: a read returns the slot's value before the population or its value in the image, by the flag. -/
def Obligations.ReadIsOldOrImage : Prop :=
  ∀ (s : State) (ag : Agent) (a : Nat) (rest : List Request), s.InLifecycle →
    s.requests = ⟨ag, .read a⟩ :: rest →
    ∃ t, step s = .next t ∧ t.InLifecycle ∧
      t.response = some (.dataO (if s.initDone then memRead (image demoConfig) a else 0))

/-- R55, R194: in a run whose requests keep the boot order, every `read` a step performs returns the image's word. -/
def Obligations.BootOrderedReadsSeeProgram : Prop :=
  ∀ (n : Nat) (s t : State) (ag : Agent) (a : Nat) (rest : List Request), s.InLifecycle → s.BootOrdered →
    Host.Core.run Sys2Proof.core n s = .next t → t.requests = ⟨ag, .read a⟩ :: rest →
    ∃ u, step t = .next u ∧ u.response = some (.dataO (memRead (image demoConfig) a))

/-- Interleaving I2 of the vectors (R48): after a read of 0 that gave a word other than 0, no later read of 8 gives 0,
whatever runs between. -/
def Obligations.NoPartialPopulationSeen : Prop :=
  ∀ (n : Nat) (s t u v : State) (ag ag' : Agent) (w w' : Word) (rest rest' : List Request), s.InLifecycle →
    s.requests = ⟨ag, .read 0⟩ :: rest → step s = .next t → t.response = some (.dataO w) → w ≠ 0 →
    Host.Core.run Sys2Proof.core n t = .next u → u.requests = ⟨ag', .read 8⟩ :: rest' → step u = .next v →
    v.response = some (.dataO w') → w' ≠ 0

/-- R56: however many `write` requests there are and whoever makes them, if there is one, doing all requests leaves the
image. -/
def Obligations.OnePopulation : Prop :=
  ∀ s : State, s.InLifecycle → (∃ q ∈ s.requests, q.operation = .write) →
    ∃ t, Host.Core.run Sys2Proof.core s.requests.length s = .next t ∧ t.initDone = true ∧
      t.mem = image demoConfig ∧ t.requests = []

/-- R57: once the flag is set, a request's output is the same whatever request is done just before it. -/
def Obligations.ReadersCommute : Prop :=
  ∀ (s t u v : State) (q q' : Request) (rest rest' : List Request), s.initDone = true →
    step { s with requests := q' :: q :: rest } = .next t → step t = .next u →
    step { s with requests := q :: rest' } = .next v → u.response = v.response

/-- R172: a permitted request of the fetch engine or the debugger leaves the memory and the flag as they are. -/
def Obligations.ReadersCannotWrite : Prop :=
  ∀ (s t : State) (q : Request) (rest : List Request), s.requests = q :: rest → q.agent ≠ .bootstrapOwner →
    permitted q.agent q.operation = true → step s = .next t → t.mem = s.mem ∧ t.initDone = s.initDone

/-- R32: the hidden flag shows in what address 0 reads: 0 exactly while it is clear. -/
def Obligations.FlagObservableAtZero : Prop :=
  ∀ s : State, s.InLifecycle → (memRead s.mem 0 ≠ 0 ↔ s.initDone = true)

/-- Canonical memories that read the same at every address are the same data. -/
def Obligations.CanonicalMemoryExtensional : Prop :=
  ∀ m m' : Memory, m.wf = true → m'.wf = true → (∀ a, memRead m a = memRead m' a) → m = m'
end

