-- ==== Sys2Proof/Laws/Encoding.lean ====
section
/-! SUPPORT. What the packing and the extraction of fields do, as numbers and to each other (R67 to R69). -/

namespace Sys2Proof

/-- The number a packed word is. -/
theorem packWord_toNat (o a b : Byte) :
    (packWord o a b).toNat = o.toNat * 65536 + a.toNat * 256 + b.toNat := by
  have ho := o.isLt
  have ha := a.isLt
  have hb := b.isLt
  have low := Nat.two_pow_add_eq_or_of_lt (b := b.toNat) (i := 8) hb a.toNat
  have high := Nat.two_pow_add_eq_or_of_lt (b := 2 ^ 8 * a.toNat + b.toNat) (i := 16) (by omega) o.toNat
  simp only [packWord, BitVec.toNat_or, BitVec.toNat_shiftLeft, BitVec.toNat_setWidth, Nat.shiftLeft_eq]
  rw [Nat.mod_eq_of_lt (a := o.toNat) (by omega), Nat.mod_eq_of_lt (a := a.toNat) (by omega),
    Nat.mod_eq_of_lt (a := b.toNat) (by omega), Nat.mod_eq_of_lt (by omega), Nat.mod_eq_of_lt (by omega),
    Nat.or_assoc, Nat.mul_comm a.toNat, ← low, Nat.mul_comm o.toNat, ← high]
  omega

theorem opcodeOf_toNat (w : Word) : (opcodeOf w).toNat = w.toNat / 65536 := by
  have := w.isLt
  simp [opcodeOf, BitVec.extractLsb'_toNat, Nat.shiftRight_eq_div_pow]
  omega

theorem operand1Of_toNat (w : Word) : (operand1Of w).toNat = w.toNat / 256 % 256 := by
  simp [operand1Of, BitVec.extractLsb'_toNat, Nat.shiftRight_eq_div_pow]

theorem operand2Of_toNat (w : Word) : (operand2Of w).toNat = w.toNat % 256 := by
  simp [operand2Of, BitVec.extractLsb'_toNat]

@[simp] theorem opcodeOf_packWord (o a b : Byte) : opcodeOf (packWord o a b) = o := by
  apply BitVec.eq_of_toNat_eq
  rw [opcodeOf_toNat, packWord_toNat]
  omega

@[simp] theorem operand1Of_packWord (o a b : Byte) : operand1Of (packWord o a b) = a := by
  apply BitVec.eq_of_toNat_eq
  rw [operand1Of_toNat, packWord_toNat]
  omega

@[simp] theorem operand2Of_packWord (o a b : Byte) : operand2Of (packWord o a b) = b := by
  apply BitVec.eq_of_toNat_eq
  rw [operand2Of_toNat, packWord_toNat]
  omega

/-- A word is the packing of its own fields. -/
@[simp] theorem packWord_fields (w : Word) : packWord (opcodeOf w) (operand1Of w) (operand2Of w) = w := by
  apply BitVec.eq_of_toNat_eq
  rw [packWord_toNat, opcodeOf_toNat, operand1Of_toNat, operand2Of_toNat]
  omega

/-- A packed word is the no-op word exactly when all its fields are 0. -/
theorem packWord_eq_nop (o a b : Byte) : packWord o a b = nopWord ↔ o = 0 ∧ a = 0 ∧ b = 0 := by
  constructor
  · intro h
    exact ⟨(opcodeOf_packWord o a b).symm.trans (congrArg opcodeOf h),
      (operand1Of_packWord o a b).symm.trans (congrArg operand1Of h),
      (operand2Of_packWord o a b).symm.trans (congrArg operand2Of h)⟩
  · rintro ⟨rfl, rfl, rfl⟩
    rfl

@[simp] theorem opcodeOf_targetWord (op : Byte) (slot : OperandSlot) (t x : Byte) :
    opcodeOf (targetWord op slot t x) = op := by
  cases slot <;> simp [targetWord]

@[simp] theorem targetOf_targetWord (op : Byte) (slot : OperandSlot) (t x : Byte) :
    targetOf slot (targetWord op slot t x) = t := by
  cases slot <;> simp [targetWord, targetOf]

@[simp] theorem otherOf_targetWord (op : Byte) (slot : OperandSlot) (t x : Byte) :
    otherOf slot (targetWord op slot t x) = x := by
  cases slot <;> simp [targetWord, otherOf]

/-- A word is the jump or call word of its own opcode, target and other operand. -/
@[simp] theorem targetWord_fields (slot : OperandSlot) (w : Word) :
    targetWord (opcodeOf w) slot (targetOf slot w) (otherOf slot w) = w := by
  cases slot <;> simp [targetWord, targetOf, otherOf]

theorem targetWord_eq_nop (op : Byte) (slot : OperandSlot) (t x : Byte) :
    targetWord op slot t x = nopWord ↔ op = 0 ∧ t = 0 ∧ x = 0 := by
  cases slot
  · simp [targetWord, packWord_eq_nop]
  · simp [targetWord, packWord_eq_nop]
    tauto

/-- The decoder's answer, case by case: it is one of the four word rows. -/
theorem decodeWord_cases (p : Params) (w : Word) :
    (w = nopWord ∧ decodeWord p w = .nop) ∨
    (w ≠ nopWord ∧ opcodeOf w = p.opJmp ∧
      decodeWord p w = .jmp (targetOf p.jmpTargetSlot w) (otherOf p.jmpTargetSlot w)) ∨
    (w ≠ nopWord ∧ opcodeOf w ≠ p.opJmp ∧ opcodeOf w = p.opCall ∧
      decodeWord p w = .call (targetOf p.callTargetSlot w) (otherOf p.callTargetSlot w)) ∨
    (w ≠ nopWord ∧ opcodeOf w ≠ p.opJmp ∧ opcodeOf w ≠ p.opCall ∧
      decodeWord p w = .any (opcodeOf w) (operand1Of w) (operand2Of w)) := by
  by_cases h0 : w = nopWord
  · exact .inl ⟨h0, by simp [decodeWord, h0]⟩
  by_cases h1 : opcodeOf w = p.opJmp
  · exact .inr (.inl ⟨h0, h1, by simp [decodeWord, h0, h1]⟩)
  by_cases h2 : opcodeOf w = p.opCall
  · have h1' : p.opCall ≠ p.opJmp := fun h => h1 (h2.trans h)
    exact .inr (.inr (.inl ⟨h0, h1, h2, by simp [decodeWord, h0, h1', h2]⟩))
  · exact .inr (.inr (.inr ⟨h0, h1, h2, by simp [decodeWord, h0, h1, h2]⟩))

namespace Machine

/-- A truncated input as a number (R93). -/
theorem trunc8_toNat (v : Int) : ((trunc8 v).toNat : Int) = v % 256 := by
  simp [trunc8, BitVec.toNat_ofInt]
  omega

@[simp] theorem trunc8_byte (b : Byte) : trunc8 (b.toNat : Int) = b := by
  apply BitVec.eq_of_toNat_eq
  have := trunc8_toNat b.toNat
  have := b.isLt
  omega

@[simp] theorem assemble_bytes (o a b : Byte) : assemble o.toNat a.toNat b.toNat = packWord o a b := by
  simp [assemble]

@[simp] theorem assembleTriple_fields (o a b : Byte) :
    assembleTriple (tripleOfFields o a b) = packWord o a b := by
  simp [assembleTriple, tripleOfFields]

end Machine

end Sys2Proof
end

