-- ==== Sys2Proof/Laws/Memory.lean ====
section
/-! SUPPORT. What the operations over the slot array do: read after write, and that each keeps the canonical form. -/

namespace Sys2Proof.Machine

@[simp] theorem slotsWf_nil (lo : Nat) : slotsWf lo [] = true := rfl

theorem slotsWf_cons (lo a : Nat) (w : Word) (rest : Memory) :
    slotsWf lo ((a, w) :: rest) = true ↔
      lo ≤ a ∧ a < capacity ∧ w ≠ nopWord ∧ slotsWf (a + 1) rest = true := by
  simp [slotsWf, and_assoc]

/-- The form from a higher index on is the form from a lower one on. -/
theorem slotsWf_mono {lo lo' : Nat} {m : Memory} (h : slotsWf lo m = true) (hle : lo' ≤ lo) :
    slotsWf lo' m = true := by
  cases m with
  | nil => rfl
  | cons c rest =>
    obtain ⟨a, w⟩ := c
    rw [slotsWf_cons] at h ⊢
    exact ⟨by omega, h.2⟩

/-- A slot below every listed one is unlisted. -/
theorem slotWord_below {lo a : Nat} {m : Memory} (h : slotsWf lo m = true) (hlt : a < lo) :
    slotWord m a = nopWord := by
  induction m generalizing lo with
  | nil => rfl
  | cons c rest ih =>
    obtain ⟨b, v⟩ := c
    rw [slotsWf_cons] at h
    have hne : b ≠ a := by omega
    simp only [slotWord, hne, if_false]
    exact ih h.2.2.2 (by omega)

/-- A slot at or above the capacity is never listed. -/
theorem slotWord_above {lo a : Nat} {m : Memory} (h : slotsWf lo m = true) (hge : capacity ≤ a) :
    slotWord m a = nopWord := by
  induction m generalizing lo with
  | nil => rfl
  | cons c rest ih =>
    obtain ⟨b, v⟩ := c
    rw [slotsWf_cons] at h
    have hne : b ≠ a := by omega
    simp only [slotWord, hne, if_false]
    exact ih h.2.2.2

theorem slotWord_setSlot {lo : Nat} {m : Memory} (h : slotsWf lo m = true) (a : Nat) (w : Word) (b : Nat) :
    slotWord (setSlot m a w) b = if b = a then w else slotWord m b := by
  induction m generalizing lo with
  | nil =>
    have comm : a = b ↔ b = a := eq_comm
    by_cases hw : w = nopWord <;> by_cases hb : b = a <;> simp [setSlot, slotWord, hw, hb, comm]
  | cons c rest ih =>
    obtain ⟨d, v⟩ := c
    rw [slotsWf_cons] at h
    have below : ∀ x, x ≤ d → slotWord rest x = nopWord := fun x hx => slotWord_below h.2.2.2 (by omega)
    simp only [setSlot]
    split
    · rename_i had
      have hda : d ≠ a := by omega
      by_cases hb : b = a
      · subst hb
        by_cases hw : w = nopWord <;> simp [slotWord, hw, hda, below b (by omega)]
      · have hab : a ≠ b := fun e => hb e.symm
        by_cases hw : w = nopWord <;> simp [slotWord, hw, hb, hab]
    · split
      · rename_i had
        subst had
        by_cases hb : b = a
        · subst hb
          by_cases hw : w = nopWord <;> simp [slotWord, hw, below b (by omega)]
        · have hab : a ≠ b := fun e => hb e.symm
          by_cases hw : w = nopWord <;> simp [slotWord, hw, hb, hab]
      · simp only [slotWord, ih h.2.2.2]
        by_cases hdb : d = b
        · have hba : b ≠ a := by omega
          simp [hdb, hba]
        · simp [hdb]

theorem slotsWf_setSlot {lo : Nat} {m : Memory} (h : slotsWf lo m = true) {a : Nat} (hlo : lo ≤ a)
    (ha : a < capacity) (w : Word) : slotsWf lo (setSlot m a w) = true := by
  induction m generalizing lo with
  | nil => by_cases hw : w = nopWord <;> simp [setSlot, hw, slotsWf_cons, hlo, ha]
  | cons c rest ih =>
    obtain ⟨d, v⟩ := c
    rw [slotsWf_cons] at h
    simp only [setSlot]
    split
    · rename_i had
      split
      · exact (slotsWf_cons ..).2 h
      · rename_i hw
        exact (slotsWf_cons ..).2 ⟨hlo, ha, hw, (slotsWf_cons ..).2 ⟨by omega, h.2⟩⟩
    · split
      · rename_i had
        split
        · exact slotsWf_mono h.2.2.2 (by omega)
        · rename_i hw
          exact (slotsWf_cons ..).2 ⟨hlo, ha, hw, had ▸ h.2.2.2⟩
      · exact (slotsWf_cons ..).2 ⟨h.1, h.2.1, h.2.2.1, ih h.2.2.2 (by omega)⟩

/-- A memory with every slot 0 has the canonical form and reads 0 everywhere. -/
theorem blank_wf : Memory.blank.wf = true := rfl

@[simp] theorem memRead_blank (a : Nat) : memRead Memory.blank a = nopWord := by
  simp [memRead, Memory.blank, slotWord]

/-- At and above the capacity every memory reads 0 (R106). -/
theorem memRead_of_capacity_le (m : Memory) {a : Nat} (h : capacity ≤ a) : memRead m a = nopWord := by
  simp [memRead, Nat.not_lt.2 h]

/-- A read of a canonical memory is the slot's word, at every address. -/
theorem memRead_eq_slotWord {m : Memory} (h : m.wf = true) (a : Nat) : memRead m a = slotWord m a := by
  by_cases ha : a < capacity
  · simp [memRead, ha]
  · rw [memRead_of_capacity_le m (by omega), slotWord_above h (by omega)]

theorem memWrite_wf {m : Memory} (h : m.wf = true) (a : Nat) (w : Word) : (memWrite m a w).wf = true := by
  by_cases ha : a < capacity
  · simpa [memWrite, ha, Memory.wf] using slotsWf_setSlot h (Nat.zero_le a) ha w
  · simpa [memWrite, ha] using h

/-- Read after write: the word written in its slot, every other address as before. -/
theorem memRead_memWrite {m : Memory} (h : m.wf = true) {a : Nat} (ha : a < capacity) (w : Word) (b : Nat) :
    memRead (memWrite m a w) b = if b = a then w else memRead m b := by
  rw [memRead_eq_slotWord (memWrite_wf h a w), memRead_eq_slotWord h]
  simpa [memWrite, ha] using slotWord_setSlot h a w b

theorem populateFrom_wf {m : Memory} (h : m.wf = true) (i : Nat) (ts : List Triple) :
    (populateFrom m i ts).wf = true := by
  induction ts generalizing m i with
  | nil => exact h
  | cons t rest ih => exact ih (memWrite_wf h _ _) _

/-- What every address reads after a population: the words of the entries in their slots, the rest as before. -/
theorem memRead_populateFrom {m : Memory} (h : m.wf = true) (i : Nat) (ts : List Triple)
    (hfit : i + ts.length ≤ capacity) (a : Nat) :
    memRead (populateFrom m i ts) a =
      if hin : i ≤ a ∧ a - i < ts.length then assembleTriple (ts[a - i]'hin.2) else memRead m a := by
  induction ts generalizing m i with
  | nil => simp [populateFrom]
  | cons t rest ih =>
    simp only [List.length_cons] at hfit
    simp only [populateFrom]
    rw [ih (memWrite_wf h _ _) (i + 1) (by omega), memRead_memWrite h (by omega)]
    by_cases hai : a = i
    · subst hai
      simp
    · by_cases hin : i + 1 ≤ a ∧ a - (i + 1) < rest.length
      · have hin' : i ≤ a ∧ a - i < (t :: rest).length := by simp only [List.length_cons]; omega
        rw [dif_pos hin, dif_pos hin']
        have hsub : a - i = (a - (i + 1)) + 1 := by omega
        simp [hsub]
      · have hin' : ¬(i ≤ a ∧ a - i < (t :: rest).length) := by simp only [List.length_cons]; omega
        rw [dif_neg hin, dif_neg hin', if_neg hai]

theorem image_wf (c : ProgramConfig) : (image c).wf = true := populateFrom_wf blank_wf 0 c.program

/-- What every address of the image reads (R120). -/
theorem memRead_image (c : ProgramConfig) (a : Nat) :
    memRead (image c) a = if h : a < c.program.length then assembleTriple c.program[a] else nopWord := by
  have hfit := c.fits
  simpa [image] using memRead_populateFrom blank_wf 0 c.program (by omega) a

end Sys2Proof.Machine
end

