-- ==== Sys2Proof/Laws/StoredProgram.lean ====
section
/-! SUPPORT. What is fixed of the demonstration program: its length and its two known words (R121, R122, R125). -/

namespace Sys2Proof.Machine

/-- The word of a jump or call triple. -/
@[simp] theorem assembleTriple_target (op : Byte) (slot : OperandSlot) (t x : Byte) :
    assembleTriple (targetTriple op slot t x) = targetWord op slot t x := by
  cases slot <;> simp [targetTriple, targetWord]

@[simp] theorem demoProgram_length (p : Params) (x y : Byte) (free : Nat → Byte × Byte × Byte) :
    (demoProgram p x y free).length = 30 := by
  simp [demoProgram, programLen]

theorem demoConfig_program_length : demoConfig.program.length = 30 :=
  demoProgram_length ..

@[simp] theorem demoConfig_ranges : demoConfig.ranges = demoRanges := rfl

/-- The entry at an index of the demonstration program. -/
theorem demoConfig_entry (i : Nat) (h : i < demoConfig.program.length) :
    demoConfig.program[i] = demoTriple Config.params Config.jmpOther Config.callOther Config.programFields i := by
  simp [demoConfig, demoConfigOf, demoProgram]

/-- The image's word at address 0: the jump to 8 (R121). -/
theorem memRead_image_zero : memRead (image demoConfig) 0 =
    targetWord Config.params.opJmp Config.params.jmpTargetSlot 8 Config.jmpOther := by
  have h : 0 < demoConfig.program.length := by simp [demoConfig_program_length]
  rw [memRead_image, dif_pos h, demoConfig_entry]
  simp [demoTriple]

/-- The image's word at address 8: the call of 18 (R122). -/
theorem memRead_image_eight : memRead (image demoConfig) 8 =
    targetWord Config.params.opCall Config.params.callTargetSlot 18 Config.callOther := by
  have h : 8 < demoConfig.program.length := by simp [demoConfig_program_length]
  rw [memRead_image, dif_pos h, demoConfig_entry]
  simp [demoTriple]

/-- The image's word past the program is 0 (R124). -/
theorem memRead_image_tail {a : Nat} (h : 30 ≤ a) : memRead (image demoConfig) a = nopWord := by
  rw [memRead_image, dif_neg]
  simp [demoConfig_program_length, h]

end Sys2Proof.Machine
end

