-- ==== Sys2Proof/Laws/SymbolTable.lean ====
section
/-! SUPPORT. What the scan over a range table answers (R143, R144). -/

namespace Sys2Proof.Machine

@[simp] theorem lookupName_nil (a : Nat) : lookupName [] a = unknownName := rfl

theorem rangeContains_iff (r : SubroutineRange) (a : Nat) :
    rangeContains r a = true ↔ r.start ≤ a ∧ a < r.stop := by
  simp [rangeContains]

theorem lookupName_hit {r : SubroutineRange} {a : Nat} (h : rangeContains r a = true) (rest : List SubroutineRange) :
    lookupName (r :: rest) a = r.name := by
  simp [lookupName, h]

theorem lookupName_miss {r : SubroutineRange} {a : Nat} (h : rangeContains r a = false)
    (rest : List SubroutineRange) : lookupName (r :: rest) a = lookupName rest a := by
  simp [lookupName, h]

/-- No range contains the address: the sentinel. -/
theorem lookupName_none {rs : List SubroutineRange} {a : Nat} (h : ∀ r ∈ rs, rangeContains r a = false) :
    lookupName rs a = unknownName := by
  induction rs with
  | nil => rfl
  | cons r rest ih =>
    rw [lookupName_miss (h r (by simp))]
    exact ih fun r' hr' => h r' (by simp [hr'])

/-- One range of the table contains the address and no other one does: its name. -/
theorem lookupName_unique {rs : List SubroutineRange} {r : SubroutineRange} {a : Nat} (hr : r ∈ rs)
    (hin : rangeContains r a = true) (honly : ∀ r' ∈ rs, rangeContains r' a = true → r' = r) :
    lookupName rs a = r.name := by
  induction rs with
  | nil => simp at hr
  | cons d rest ih =>
    cases hd : rangeContains d a with
    | true => rw [lookupName_hit hd, honly d (by simp) hd]
    | false =>
      rw [lookupName_miss hd]
      rcases List.mem_cons.1 hr with rfl | hr'
      · simp [hin] at hd
      · exact ih hr' fun r' h' => honly r' (by simp [h'])

end Sys2Proof.Machine
end

