-- ==== Sys2Proof/Laws/Labels.lean ====
section
/-! SUPPORT. What the ranges derived from a labelled list are, and what resolving a source list's labels gives (R149,
R203). -/

namespace Sys2Proof.Machine

theorem nextLabel_bounds {α : Type} (i : Nat) (es : List (Option String × α)) :
    i ≤ nextLabel i es ∧ nextLabel i es ≤ i + es.length := by
  induction es generalizing i with
  | nil => simp [nextLabel]
  | cons e rest ih =>
    obtain ⟨l, v⟩ := e
    have := ih (i + 1)
    cases l <;> simp only [nextLabel, List.length_cons] <;> omega

/-- The derived ranges follow one another without a gap, from the first label to the end of the list. -/
theorem rangesFrom_cover {α : Type} (i : Nat) (es : List (Option String × α)) :
    rangesCover (nextLabel i es) (i + es.length) (rangesFrom i es) = true := by
  induction es generalizing i with
  | nil => simp [nextLabel, rangesFrom, rangesCover]
  | cons e rest ih =>
    obtain ⟨l, v⟩ := e
    have hlen : i + (rest.length + 1) = (i + 1) + rest.length := by omega
    have hb := nextLabel_bounds (i + 1) rest
    cases l with
    | none => simpa only [nextLabel, rangesFrom, List.length_cons, hlen] using ih (i + 1)
    | some n =>
      simp only [nextLabel, rangesFrom, rangesCover, List.length_cons, hlen, ih (i + 1), Bool.and_true,
        decide_true, Bool.true_and, decide_eq_true_eq]
      omega

/-- A derived range stands for a labelled position: it starts there, has its label's name and is not empty. -/
theorem rangesFrom_label {α : Type} {i : Nat} {es : List (Option String × α)} {r : SubroutineRange}
    (h : r ∈ rangesFrom i es) :
    (∃ k v, es[k]? = some (some r.name, v) ∧ r.start = i + k) ∧ r.start < r.stop ∧ r.stop ≤ i + es.length := by
  induction es generalizing i with
  | nil => simp [rangesFrom] at h
  | cons e rest ih =>
    obtain ⟨l, v⟩ := e
    have later : r ∈ rangesFrom (i + 1) rest →
        (∃ k w, ((l, v) :: rest)[k]? = some (some r.name, w) ∧ r.start = i + k) ∧ r.start < r.stop ∧
          r.stop ≤ i + ((l, v) :: rest).length := by
      intro hr
      obtain ⟨⟨k, w, hk, hs⟩, hlt, hle⟩ := ih hr
      exact ⟨⟨k + 1, w, by simpa using hk, by omega⟩, hlt, by simp only [List.length_cons]; omega⟩
    cases l with
    | none => exact later h
    | some n =>
      have hb := nextLabel_bounds (i + 1) rest
      rcases List.mem_cons.1 h with rfl | hr
      · exact ⟨⟨0, v, rfl, rfl⟩, by simp only; omega, by simp only [List.length_cons]; omega⟩
      · exact later hr

/-- Ranges without a gap hold each address from `lo` to `stop` in exactly one range, and no other address. -/
theorem rangesCover_unique {lo stop : Nat} {rs : List SubroutineRange} (h : rangesCover lo stop rs = true) :
    lo ≤ stop ∧ (∀ r ∈ rs, lo ≤ r.start ∧ r.start < r.stop ∧ r.stop ≤ stop) ∧
      (∀ a, lo ≤ a → a < stop → ∃! r, r ∈ rs ∧ r.start ≤ a ∧ a < r.stop) := by
  induction rs generalizing lo with
  | nil =>
    have : lo = stop := by simpa [rangesCover] using h
    exact ⟨by omega, by simp, fun a h1 h2 => by omega⟩
  | cons d rest ih =>
    simp only [rangesCover, Bool.and_eq_true, decide_eq_true_eq] at h
    obtain ⟨⟨hs, hlt⟩, hrest⟩ := h
    obtain ⟨hle, hin, huniq⟩ := ih hrest
    refine ⟨by omega, fun r hr => ?_, fun a h1 h2 => ?_⟩
    · rcases List.mem_cons.1 hr with rfl | hr
      · omega
      · have := hin r hr
        omega
    · by_cases hd : a < d.stop
      · refine ⟨d, ⟨by simp, by omega, hd⟩, ?_⟩
        rintro r ⟨hr, h3, h4⟩
        rcases List.mem_cons.1 hr with rfl | hr
        · rfl
        · have := hin r hr
          omega
      · obtain ⟨r, ⟨hr, h3, h4⟩, hu⟩ := huniq a (by omega) h2
        refine ⟨r, ⟨by simp [hr], h3, h4⟩, ?_⟩
        rintro r' ⟨hr', h5, h6⟩
        rcases List.mem_cons.1 hr' with rfl | hr'
        · omega
        · exact hu r' ⟨hr', h5, h6⟩

/-- A labelled position has a derived range that starts there and has its label's name. -/
theorem rangesFrom_at_label {α : Type} {es : List (Option String × α)} {i : Nat} {name : String} {v : α}
    (h : es[i]? = some (some name, v)) (j : Nat) : ∃ r ∈ rangesFrom j es, r.start = j + i ∧ r.name = name := by
  induction es generalizing i j with
  | nil => simp at h
  | cons e rest ih =>
    obtain ⟨l, w⟩ := e
    cases i with
    | zero =>
      simp only [List.getElem?_cons_zero, Option.some.injEq, Prod.mk.injEq] at h
      obtain ⟨rfl, rfl⟩ := h
      exact ⟨_, List.mem_cons_self, rfl, rfl⟩
    | succ i =>
      obtain ⟨r, hr, hs, hn⟩ := ih (i := i) (by simpa using h) (j + 1)
      refine ⟨r, ?_, by omega, hn⟩
      cases l <;> simp [rangesFrom, hr]

/-- Over ranges without a gap, the start of a range has that range's name. -/
theorem lookupName_of_cover {lo stop : Nat} {rs : List SubroutineRange} (h : rangesCover lo stop rs = true)
    {r : SubroutineRange} (hr : r ∈ rs) : lookupName rs r.start = r.name := by
  obtain ⟨-, hin, huniq⟩ := rangesCover_unique h
  have hb := hin r hr
  obtain ⟨d, -, hu⟩ := huniq r.start (by omega) (by omega)
  refine lookupName_unique hr ((rangeContains_iff ..).2 (by omega)) fun r' hr' hc => ?_
  rw [hu r' ⟨hr', (rangeContains_iff ..).1 hc⟩, hu r ⟨hr, by omega⟩]

/-- A symbolic address constant is the start of a range of that name. -/
theorem labelAddress_some {rs : List SubroutineRange} {name : String} {a : Nat}
    (h : labelAddress rs name = some a) : ∃ r ∈ rs, r.name = name ∧ r.start = a := by
  obtain ⟨r, hr, rfl⟩ := Option.map_eq_some_iff.1 h
  exact ⟨r, List.mem_of_find?_eq_some hr, by simpa using List.find?_some hr, rfl⟩

/-- Resolving a source list succeeds with one triple per entry, that of its item. -/
theorem resolveAll_some {p : Params} {rs : List SubroutineRange} {es : List (Option String × SourceItem)}
    {ts : List Triple} (h : resolveAll p rs es = some ts) :
    ts.length = es.length ∧
      ∀ (i : Nat) (l : Option String) (item : SourceItem), es[i]? = some (l, item) → ∃ t, ts[i]? = some t ∧ resolveItem p rs item = some t := by
  induction es generalizing ts with
  | nil =>
    cases h
    simp
  | cons e rest ih =>
    obtain ⟨l0, item0⟩ := e
    simp only [resolveAll] at h
    split at h
    · rename_i t ts' ht hts
      cases h
      obtain ⟨hlen, hat⟩ := ih hts
      refine ⟨by simp [hlen], fun i l item hi => ?_⟩
      cases i with
      | zero =>
        simp only [List.getElem?_cons_zero, Option.some.injEq, Prod.mk.injEq] at hi
        exact ⟨t, rfl, hi.2 ▸ ht⟩
      | succ i => exact hat i l item (by simpa using hi)
    · cases h

/-- A configuration of a source list: its ranges are the derived ones, its program the resolved one. -/
theorem configOfSource_some {p : Params} {es : List (Option String × SourceItem)} {c : ProgramConfig}
    (h : configOfSource p es = some c) :
    c.ranges = rangesFrom 0 es ∧ resolveAll p (rangesFrom 0 es) es = some c.program := by
  unfold configOfSource at h
  split at h
  · rename_i program hp
    unfold ProgramConfig.make? at h
    split at h
    · cases h
      exact ⟨rfl, hp⟩
    · cases h
  · cases h

end Sys2Proof.Machine
end

