-- ==== Sys2Proof/Laws/PerInstr.lean ====
section
/-! SUPPORT. Statements about every row of the opcode table as syntax, one lemma per constructor. -/

namespace Sys2Proof.Laws

/-- An instruction's word, if it has one, is packed from its own fields; an operation has no word. -/
def EncodedFields.Statement (i : Instr) : Prop :=
  ∀ (p : Params) (w : Word), encodeWord p i = some w →
    match i with
    | .any o a b => opcodeOf w = o ∧ operand1Of w = a ∧ operand2Of w = b
    | .nop => opcodeOf w = 0 ∧ operand1Of w = 0 ∧ operand2Of w = 0
    | .jmp t x => opcodeOf w = p.opJmp ∧ targetOf p.jmpTargetSlot w = t ∧ otherOf p.jmpTargetSlot w = x
    | .call t y => opcodeOf w = p.opCall ∧ targetOf p.callTargetSlot w = t ∧ otherOf p.callTargetSlot w = y
    | .assemble _ _ _ => False
    | .construct => False
    | .write => False
    | .read _ => False
    | .subroutineName _ => False

theorem EncodedFields.any (o a b : Byte) : EncodedFields.Statement (.any o a b) := by
  intro p w h
  cases h
  simp

theorem EncodedFields.nop : EncodedFields.Statement .nop := by
  intro p w h
  cases h
  exact ⟨rfl, rfl, rfl⟩

theorem EncodedFields.jmp (t x : Byte) : EncodedFields.Statement (.jmp t x) := by
  intro p w h
  cases h
  simp

theorem EncodedFields.call (t y : Byte) : EncodedFields.Statement (.call t y) := by
  intro p w h
  cases h
  simp

theorem EncodedFields.assemble (o a b : Int) : EncodedFields.Statement (.assemble o a b) := by
  intro p w h
  cases h

theorem EncodedFields.construct : EncodedFields.Statement .construct := by
  intro p w h
  cases h

theorem EncodedFields.write : EncodedFields.Statement .write := by
  intro p w h
  cases h

theorem EncodedFields.read (a : Nat) : EncodedFields.Statement (.read a) := by
  intro p w h
  cases h

theorem EncodedFields.subroutineName (a : Nat) : EncodedFields.Statement (.subroutineName a) := by
  intro p w h
  cases h

end Sys2Proof.Laws
end

