-- ==== Sys2Proof/Laws/State.lean ====
section
/-! SUPPORT. What each update of the state leaves in each field. -/

namespace Sys2Proof.Machine

@[simp] theorem State.respond_mem (s : State) (r : Response) : (s.respond r).mem = s.mem := rfl
@[simp] theorem State.respond_initDone (s : State) (r : Response) : (s.respond r).initDone = s.initDone := rfl
@[simp] theorem State.respond_requests (s : State) (r : Response) : (s.respond r).requests = s.requests := rfl
@[simp] theorem State.respond_response (s : State) (r : Response) : (s.respond r).response = some r := rfl

@[simp] theorem State.deliver_mem (s : State) (w : Word) : (s.deliver w).mem = s.mem := rfl
@[simp] theorem State.deliver_initDone (s : State) (w : Word) : (s.deliver w).initDone = s.initDone := rfl
@[simp] theorem State.deliver_requests (s : State) (w : Word) : (s.deliver w).requests = s.requests := rfl
@[simp] theorem State.deliver_response (s : State) (w : Word) : (s.deliver w).response = some (.dataO w) := rfl

@[simp] theorem State.accept_mem (s : State) (rest : List Request) : (s.accept rest).mem = s.mem := rfl
@[simp] theorem State.accept_initDone (s : State) (rest : List Request) : (s.accept rest).initDone = s.initDone := rfl
@[simp] theorem State.accept_requests (s : State) (rest : List Request) : (s.accept rest).requests = rest := rfl
@[simp] theorem State.accept_response (s : State) (rest : List Request) : (s.accept rest).response = none := rfl

@[simp] theorem State.submit_mem (s : State) (q : Request) : (s.submit q).mem = s.mem := rfl
@[simp] theorem State.submit_initDone (s : State) (q : Request) : (s.submit q).initDone = s.initDone := rfl
@[simp] theorem State.submit_requests (s : State) (q : Request) : (s.submit q).requests = s.requests ++ [q] := rfl
@[simp] theorem State.submit_response (s : State) (q : Request) : (s.submit q).response = s.response := rfl

@[simp] theorem State.constructBlock_mem (s : State) : s.constructBlock.mem = Memory.blank := rfl
@[simp] theorem State.constructBlock_initDone (s : State) : s.constructBlock.initDone = false := rfl
@[simp] theorem State.constructBlock_requests (s : State) : s.constructBlock.requests = s.requests := rfl
@[simp] theorem State.constructBlock_response (s : State) : s.constructBlock.response = s.response := rfl

/-- The first `write` of a state (R102). -/
theorem State.populateOnce_first (c : ProgramConfig) (s : State) (h : s.initDone = false) :
    s.populateOnce c = { s with mem := populateFrom s.mem 0 c.program, initDone := true } := by
  simp [State.populateOnce, State.populationDue, initDoneWritten, h]

/-- A later `write` (R103). -/
theorem State.populateOnce_later (c : ProgramConfig) (s : State) (h : s.initDone = true) :
    s.populateOnce c = s := by
  simp [State.populateOnce, State.populationDue, h]

@[simp] theorem State.populateOnce_initDone (c : ProgramConfig) (s : State) : (s.populateOnce c).initDone = true := by
  cases h : s.initDone <;> simp [State.populateOnce_first, State.populateOnce_later, h]

@[simp] theorem State.populateOnce_requests (c : ProgramConfig) (s : State) :
    (s.populateOnce c).requests = s.requests := by
  cases h : s.initDone <;> simp [State.populateOnce_first, State.populateOnce_later, h]

@[simp] theorem State.populateOnce_response (c : ProgramConfig) (s : State) :
    (s.populateOnce c).response = s.response := by
  cases h : s.initDone <;> simp [State.populateOnce_first, State.populateOnce_later, h]

end Sys2Proof.Machine
end

