-- ==== Sys2Proof/Laws/Step.lean ====
section
/-! SUPPORT. Everything a step can do: which instruction a request is, what an instruction can change, and the cases of
a step that answers a next state. -/

namespace Sys2Proof.Machine

/-- A fetched word is one of the four word rows, so no operation of the block. -/
theorem fetchInstr_word (m : Memory) (a : Nat) :
    fetchInstr m a ≠ .write ∧ fetchInstr m a ≠ .construct := by
  unfold fetchInstr
  rcases decodeWord_cases Config.params (memRead m a) with ⟨-, h⟩ | ⟨-, -, h⟩ | ⟨-, -, -, h⟩ | ⟨-, -, -, h⟩ <;>
    rw [h] <;> simp

/-- No request is `construct` (R100). -/
theorem requestInstr_ne_construct (m : Memory) (q : Request) : requestInstr m q ≠ .construct := by
  obtain ⟨ag, op⟩ := q
  cases ag <;> cases op <;> simp [requestInstr, operationInstr, (fetchInstr_word m _).2]

/-- A request runs `write` exactly when `write` is what it asks for. -/
theorem requestInstr_eq_write (m : Memory) (q : Request) :
    requestInstr m q = .write ↔ q.operation = .write := by
  obtain ⟨ag, op⟩ := q
  cases ag <;> cases op <;> simp [requestInstr, operationInstr, (fetchInstr_word m _).1]

/-- What an instruction that answers a next state has done to the state: `construct` and `write` are the two that can
change the block, every other one changes the output alone (R25). -/
theorem exec_cases {i : Instr} {s t : State} (h : exec i s = .next t) :
    (i = .construct ∧ t = s.constructBlock) ∨ (i = .write ∧ t = s.populateOnce demoConfig) ∨
      (i ≠ .construct ∧ i ≠ .write ∧ ∃ r, t = s.respond r) := by
  cases i <;> cases h <;> simp [State.deliver]

/-- A step's cases: idle; the population; or an operation that changes the output alone. -/
theorem step_cases {s t : State} (h : step s = .next t) :
    (s.requests = [] ∧ t = s) ∨
    ∃ q rest, s.requests = q :: rest ∧
      ((q.operation = .write ∧ t = (s.accept rest).populateOnce demoConfig) ∨
       (q.operation ≠ .write ∧ ∃ r, t = (s.accept rest).respond r)) := by
  unfold step at h
  split at h
  · rename_i hr
    cases h
    exact .inl ⟨hr, rfl⟩
  · rename_i q rest hr
    refine .inr ⟨q, rest, hr, ?_⟩
    rcases exec_cases h with ⟨hc, -⟩ | ⟨hw, ht⟩ | ⟨-, hw, ht⟩
    · exact absurd hc (requestInstr_ne_construct _ _)
    · exact .inl ⟨(requestInstr_eq_write _ _).1 hw, ht⟩
    · exact .inr ⟨fun e => hw ((requestInstr_eq_write _ _).2 e), ht⟩

/-- A step with no request. -/
theorem step_idle {s : State} (h : s.requests = []) : step s = .next s := by
  simp [step, h]

/-- A step with a request runs its instruction. -/
theorem step_request {s : State} {q : Request} {rest : List Request} (h : s.requests = q :: rest) :
    step s = exec (requestInstr s.mem q) (s.accept rest) := by
  simp [step, h]

/-- A step takes the first request off the list. -/
theorem step_requests {s t : State} (h : step s = .next t) : t.requests = s.requests.drop 1 := by
  rcases step_cases h with ⟨hr, rfl⟩ | ⟨q, rest, hr, ⟨-, rfl⟩ | ⟨-, r, rfl⟩⟩ <;> simp [hr]

/-- The population keeps the canonical form. -/
theorem populateOnce_wf (c : ProgramConfig) {s : State} (h : s.mem.wf = true) : (s.populateOnce c).mem.wf = true := by
  cases hi : s.initDone
  · rw [State.populateOnce_first c s hi]
    exact populateFrom_wf h 0 c.program
  · rw [State.populateOnce_later c s hi]
    exact h

/-- What every address reads after the first `write` with a configuration's program (R102). -/
theorem memRead_populateOnce (c : ProgramConfig) {s : State} (h : s.mem.wf = true) (hi : s.initDone = false)
    (a : Nat) : memRead (s.populateOnce c).mem a =
      if ha : a < c.program.length then assembleTriple c.program[a] else memRead s.mem a := by
  rw [State.populateOnce_first c s hi]
  have hfit := c.fits
  simpa using memRead_populateFrom h 0 c.program (by omega) a

/-- The first `write` of a constructed block leaves the image (R120). -/
theorem populateOnce_image (c : ProgramConfig) {s : State} (hm : s.mem = Memory.blank) (hi : s.initDone = false) :
    (s.populateOnce c).mem = image c := by
  rw [State.populateOnce_first c s hi, hm]
  rfl

/-- One more step of a run. -/
theorem run_succ (n : Nat) (s t : State) : Host.Core.run Sys2Proof.core (n + 1) s = .next t ↔
    ∃ u, step s = .next u ∧ Host.Core.run Sys2Proof.core n u = .next t := by
  simp only [Host.Core.run, Sys2Proof.core]
  cases step s <;> simp

end Sys2Proof.Machine
end

