-- ==== Sys2Proof/Tests/Slice0.lean ====
section
/-! SUPPORT. The model's own tests: ill-formed terms, words and results taken from `spec/95_test_vectors.md`, one step
each, and a witness for the hypotheses of every statement that has some. -/

namespace Sys2Proof.Tests

open Sys2Proof.Machine

/-- Open parameters at the source's widths, with example opcodes. -/
def params1 : Params := ⟨0x11, 0x22, .operand1, .operand2, 0, 0, 0⟩

/-- Open parameters with both opcodes 0. -/
def params0 : Params := ⟨0, 0, .operand1, .operand1, 0, 0, 0⟩

/-! ## Well-formedness: an ill-formed term for each check -/

theorem test_ill_any_nop : Instr.wellFormed params1 (.any 0 0 0) = false := by decide
theorem test_ill_any_jmp : Instr.wellFormed params1 (.any 0x11 8 0) = false := by decide
theorem test_ill_any_call : Instr.wellFormed params1 (.any 0x22 0 18) = false := by decide
theorem test_ill_jmp_nop : Instr.wellFormed params0 (.jmp 0 0) = false := by decide
theorem test_ill_call_same_opcode : Instr.wellFormed params0 (.call 18 0) = false := by decide
theorem test_ill_call_nop :
    Instr.wellFormed ⟨0x11, 0, .operand1, .operand1, 0, 0, 0⟩ (.call 0 0) = false := by decide
theorem test_ill_assemble_wide : Instr.wellFormed params1 (.assemble 256 0 0) = false := by decide
theorem test_ill_assemble_low : Instr.wellFormed params1 (.assemble 0 (-129) 0) = false := by decide
theorem test_ill_assemble_third : Instr.wellFormed params1 (.assemble 0 0 300) = false := by decide
theorem test_ill_read : Instr.wellFormed params1 (.read 256) = false := by decide
theorem test_ill_name : Instr.wellFormed params1 (.subroutineName 256) = false := by decide

/-! ## Decoding: words written out bit by bit from R65, R121 to R123 -/

theorem test_decode_nop : decodeTableWord 24 0b000000000000000000000000 = some .nop := by decide
theorem test_decode_jmp : decodeWord params1 0b000100010000100000000101 = .jmp 8 5 := by decide
theorem test_decode_call : decodeWord params1 0b001000100000010100010010 = .call 18 5 := by decide
theorem test_decode_any : decodeWord params1 0b000100100011010001010110 = .any 0x12 0x34 0x56 := by decide
/-- Opcode 0 with a nonzero operand is not the no-op word (R77). -/
theorem test_decode_opcode0 : decodeWord params1 0b000000000000000000000001 = .any 0 0 1 := by decide
theorem test_decode_no_bits : decodeBits params1 0 0 = .error (.shorterThanAWord 0) := by rfl
theorem test_decode_too_short : decodeBits params1 23 0 = .error (.shorterThanAWord 23) := by rfl
theorem test_decode_too_long : decodeBits params1 25 0 = .error (.longerThanAWord 25) := by rfl
theorem test_fetch_word_runs :
    step (State.reset.withFetchWord 24 0) = exec .nop { State.reset with requests := [] } := by rfl

/-! ## `assemble`: vectors E2, E5, E21, E22, E24, E25 of section 2.1; R204 -/

theorem test_assemble_E2 : assemble 255 255 255 = 0xFFFFFF := by decide
theorem test_assemble_E5 : assemble 0xAB 0xCD 0xEF = 0xABCDEF := by decide
theorem test_assemble_E21 : assemble 0x1FF 0x100 0x2A5 = 0xFF00A5 := by decide
theorem test_assemble_E22 : assemble 0x1234 0x5678 0x9ABC = 0x3478BC := by decide
theorem test_assemble_E24 : assemble (-1) 0 0 = 0xFF0000 := by decide
theorem test_assemble_E25 : assemble 0 (-128) 0 = 0x008000 := by decide
theorem test_extract_X7 : (opcodeOf 0x00FFFF, operand1Of 0x00FFFF, operand2Of 0x00FFFF) = (0, 255, 255) := by decide

/-! ## The program memory: programs P1 and P3 of section 3, vectors M10, M11 -/

/-- Program P1. -/
def configP1 : ProgramConfig :=
  { program := [⟨0x11, 0x08, 0x00⟩, ⟨0x00, 0x00, 0x00⟩, ⟨0x22, 0x12, 0x00⟩, ⟨0xFF, 0xFF, 0xFF⟩,
      ⟨0x133, 0x1FF, 0x2AA⟩],
    ranges := [], fits := by decide }

theorem test_P1_image :
    [0, 1, 2, 3, 4, 5].map (memRead (image configP1)) =
      [0x110800, 0x000000, 0x221200, 0xFFFFFF, 0x33FFAA, 0x000000] := by decide

theorem test_P1_second_write :
    (State.reset.populateOnce configP1).populateOnce configP1 = State.reset.populateOnce configP1 := by decide

theorem test_P3_split : (highByte 0x1234, lowByte 0x1234) = (0x12, 0x34) := by decide

theorem test_P3_words : [assemble 0x41 26 0x34, assemble 0x41 27 0x12] = [0x411A34, 0x411B12] := by decide

theorem test_read_M11 :
    [255, 256, 65535].map (memRead (image configP1)) = [0, 0, 0] := by decide

/-- A wide address does not wrap around (M10): 260 is not 4. -/
theorem test_read_M10 : memRead (image configP1) 4 = 0x33FFAA ∧ memRead (image configP1) 260 = 0 := by decide

theorem test_memory_form : (image configP1).wf = true ∧ (image configP1).length = 4 := by decide

theorem test_long_program_refused :
    ProgramConfig.make? (List.replicate 257 ⟨0, 0, 0⟩) [] = none := by
  rw [ProgramConfig.make?, dif_neg]
  rw [List.length_replicate]
  decide

/-! ## The symbol table: section 2.4, both sides of boundaries -/

theorem test_names_low : [0, 7, 8, 9, 12, 13].map (lookupName demoRanges) =
    ["RESET_vect", "RESET_vect", "main", "main_loop", "main_loop", "led_blink"] := by decide

theorem test_names_high : [17, 18, 20, 21, 23, 24, 29, 30, 255, 65535].map (lookupName demoRanges) =
    ["led_blink", "setup", "setup", "init_ports", "init_ports", "init_registers", "init_registers", "Unknown",
      "Unknown", "Unknown"] := by decide

/-- R81's symbolic address constants. -/
theorem test_labels : (["RESET_vect", "main", "main_loop", "led_blink", "setup", "init_ports", "init_registers"].map
    (labelAddress demoRanges)) = [some 0, some 8, some 9, some 13, some 18, some 21, some 24] := by decide

/-- R149's derivation on a list of three entries. -/
theorem test_labelled : rangesFrom 0 [(some "a", 0), (none, 1), (some "b", 2)] =
    [⟨0, 2, "a"⟩, ⟨2, 3, "b"⟩] := by decide

/-- A source list: a jump to a label further on, the call of a routine, and raw items. -/
def source1 : List (Option String × SourceItem) :=
  [(some "start", .jump "end" 0), (none, .fields ⟨0x33, 1, 2⟩), (some "sub", .fields ⟨0, 0, 0⟩), (some "end", .call "sub" 7)]

/-- The configuration `source1` derives under `params1`: the jump's target in operand1, the call's in operand2. -/
def config1 : ProgramConfig :=
  { program := [⟨0x11, 3, 0⟩, ⟨0x33, 1, 2⟩, ⟨0, 0, 0⟩, ⟨0x22, 7, 2⟩],
    ranges := [⟨0, 2, "start"⟩, ⟨2, 3, "sub"⟩, ⟨3, 4, "end"⟩], fits := by decide }

theorem test_source_derives : configOfSource params1 source1 = some config1 := by decide

/-- A label that names no entry is refused (log 24). -/
theorem test_source_missing_label :
    configOfSource params1 [(some "start", .jump "nowhere" 0)] = none := by decide

/-- R203's desynchronization: an instruction added in front, targets and ranges not updated, is a configuration all the same
(the block checks nothing), and the named premise fails of it. -/
theorem test_desynchronized : ∃ c,
    ProgramConfig.make? (⟨0x33, 0, 0⟩ :: config1.program) config1.ranges = some c ∧ labelsAgree params1 c = false :=
  ⟨_, rfl, by decide⟩

/-! ## Witnesses for the statements' hypotheses -/

/-- The block after its first `write`. -/
def booted : State := State.reset.populateOnce demoConfig

/-- A state with given requests. -/
def asking (s : State) (qs : List Request) : State := { s with requests := qs }

theorem booted_initDone : booted.initDone = true := State.populateOnce_initDone _ _

theorem booted_inLifecycle : booted.InLifecycle :=
  .inr ⟨booted_initDone, populateOnce_image demoConfig rfl rfl⟩

theorem booted_wf : booted.mem.wf = true := populateOnce_wf demoConfig rfl

theorem reset_inLifecycle : State.reset.InLifecycle := .inl ⟨rfl, rfl⟩

theorem witness_TruncationModulo : 8 ≤ 9 ∧ trunc8 (0x1FF#9).toNat = 0xFF ∧ trunc8 (0x1FF#9).toInt = 0xFF := by decide
theorem witness_ResultCoverage : 24 ≤ 24 ∧ 16777215 ≤ 2 ^ 24 - 1 ∧ (container params1 0xFFFFFF).getLsbD 24 = false := by
  decide
theorem witness_DecodeEncodeWords_any :
    Instr.wellFormed params1 (.any 0xFF 0 0) = true ∧ encodeWord params1 (.any 0xFF 0 0) = some 0xFF0000 := by decide
theorem witness_DecodeEncodeWords_jmp :
    Instr.wellFormed params1 (.jmp 8 5) = true ∧ encodeWord params1 (.jmp 8 5) = some 0x110805 := by decide
theorem witness_DecodeEncodeWords_call :
    Instr.wellFormed params1 (.call 18 5) = true ∧ encodeWord params1 (.call 18 5) = some 0x220512 := by decide
theorem witness_DecodeEncodeWords_nop :
    Instr.wellFormed params1 .nop = true ∧ encodeWord params1 .nop = some 0 := by decide
theorem witness_EveryInstructionIsOneWord : 23 < 24 ∧ 24 < 25 := by decide
theorem witness_ResetValues : exec .construct booted = .next booted.constructBlock ∧ 255 ≤ 255 := ⟨rfl, le_refl _⟩
theorem witness_FirstWritePopulates : State.reset.mem.wf = true ∧ State.reset.initDone = false ∧
    29 < demoConfig.program.length ∧ programLen ≤ 30 :=
  ⟨rfl, rfl, by simp [demoConfig_program_length], le_refl _⟩
theorem witness_WriteIdempotent : booted.initDone = true := booted_initDone
theorem witness_WriteFullResult : State.reset.mem = Memory.blank ∧ State.reset.initDone = false ∧
    0 < demoConfig.program.length ∧ demoConfig.program.length ≤ 30 ∧ 30 ≤ 255 :=
  ⟨rfl, rfl, by simp [demoConfig_program_length], by simp [demoConfig_program_length], by decide⟩
theorem witness_GeneralProgramPopulation : State.reset.mem.wf = true ∧ State.reset.initDone = false ∧
    4 < configP1.program.length ∧ configP1.program.length ≤ 5 := by decide
theorem witness_LongProgramRefused : 256 < (List.replicate 257 (⟨0, 0, 0⟩ : Triple)).length ∧
    (List.replicate 256 (⟨0, 0, 0⟩ : Triple)).length ≤ 256 :=
  ⟨by rw [List.length_replicate]; decide, by rw [List.length_replicate]⟩
theorem witness_ReadResult : 255 < 256 ∧ 256 ≤ 256 := by decide
theorem witness_ReadBeforeWrite : State.reset.InLifecycle ∧ State.reset.initDone = false := ⟨reset_inLifecycle, rfl⟩
theorem witness_ReadReturnsProgram : booted.InLifecycle ∧ booted.initDone = true ∧ 29 < demoConfig.program.length :=
  ⟨booted_inLifecycle, booted_initDone, by simp [demoConfig_program_length]⟩
theorem witness_TailReadsZero : (booted.InLifecycle ∧ booted.initDone = true ∧ 30 ≤ 255 ∧ 255 ≤ 255) ∧
    booted.mem.wf = true ∧ step booted = .next booted :=
  ⟨⟨booted_inLifecycle, booted_initDone, by decide, le_refl _⟩, booted_wf, step_idle (by simp [booted, State.reset])⟩
theorem witness_FallbackIndistinguishable : 256 ≤ 256 ∧ 255 < 256 ∧ slotWord State.reset.mem 255 = 0 := by decide
theorem witness_JumpAtZero : booted.InLifecycle ∧ booted.initDone = true := ⟨booted_inLifecycle, booted_initDone⟩
theorem witness_CallAtEight : booted.InLifecycle ∧ booted.initDone = true := ⟨booted_inLifecycle, booted_initDone⟩
theorem witness_DemoProgramWellFormed :
    demoTriple params1 7 7 (fun _ => (1, 2, 3)) 29 ∈ demoProgram params1 7 7 (fun _ => (1, 2, 3)) ∧
    params1.jmpTargetSlot = .operand1 ∧ params1.callTargetSlot = .operand2 := by decide
theorem witness_StepRunsFetchedWord : (asking booted [⟨.fetchEngine, .read 0⟩]).requests =
    ⟨.fetchEngine, .read 0⟩ :: [] := rfl
theorem witness_StepRunsOperation : State.reset.requests = [] ∧
    (asking booted [⟨.bootstrapOwner, .write⟩]).requests = ⟨.bootstrapOwner, .write⟩ :: [] ∧
    (asking booted [⟨.debugger, .subroutineName 8⟩]).requests = ⟨.debugger, .subroutineName 8⟩ :: [] ∧
    (asking booted [⟨.bootstrapOwner, .assemble 1 2 3⟩]).requests = ⟨.bootstrapOwner, .assemble 1 2 3⟩ :: [] ∧
    Agent.debugger ≠ .fetchEngine ∧ (asking booted [⟨.debugger, .read 8⟩]).requests = ⟨.debugger, .read 8⟩ :: [] :=
  ⟨rfl, rfl, rfl, rfl, by decide, rfl⟩
theorem witness_FetchIsRead : (asking booted [⟨.fetchEngine, .read 256⟩]).requests =
    ⟨.fetchEngine, .read 256⟩ :: [] := rfl
theorem witness_RangePartition : 29 < 30 ∧ 30 ≤ 30 ∧ demoRanges[5]? = some ⟨21, 24, "init_ports"⟩ ∧
    demoRanges[6]? = some ⟨24, 30, "init_registers"⟩ := by decide
theorem witness_ScanOrderIrrelevant : demoRanges.Perm demoRanges.reverse ∧
    (∀ r ∈ demoRanges, ∀ r' ∈ demoRanges, rangeContains r 8 = true → rangeContains r' 8 = true → r = r') ∧
    (∀ r' ∈ [(⟨0, 8, "RESET_vect"⟩ : SubroutineRange)], rangeContains r' 8 = false) ∧
    rangeContains ⟨8, 9, "main"⟩ 8 = true :=
  ⟨(List.reverse_perm _).symm, by decide, by decide, by decide⟩
theorem witness_NameIndependentOfWrite :
    exec (.subroutineName 8) State.reset = .next (State.reset.respond (.nameO "main")) ∧
    exec (.subroutineName 8) booted = .next (booted.respond (.nameO "main")) := ⟨rfl, rfl⟩
theorem witness_DerivedRangesPartition :
    ∃ c, configOfLabelled ((some "a", ⟨0, 0, 0⟩) :: [(none, ⟨1, 0, 0⟩), (some "b", ⟨2, 0, 0⟩)]) = some c ∧
      2 < c.program.length ∧ c.program.length ≤ 3 ∧ lookupName c.ranges 2 = "b" :=
  ⟨_, rfl, by decide, by decide, by decide⟩
theorem witness_SourceTargetsFollowLabels : configOfSource params1 source1 = some config1 ∧
    source1[2]? = some (some "sub", .fields ⟨0, 0, 0⟩) ∧ source1[0]? = some (some "start", .jump "end" 0) ∧
    source1[3]? = some (some "end", .call "sub" 7) := by decide
theorem witness_AgreedTargetsAreLabels_image : labelsAgree params1 config1 = true ∧
    decodeWord params1 (memRead (image config1) 0) = .jmp 3 0 ∧
    decodeWord params1 (memRead (image config1) 3) = .call 2 7 := by decide
theorem witness_AgreedTargetsAreLabels_source : params1.opCall ≠ params1.opJmp ∧
    configOfSource params1 ((some "start", .jump "end" 0) :: source1.tail) = some config1 ∧
    (∀ l t, (l, SourceItem.fields t) ∈ (some "start", SourceItem.jump "end" 0) :: source1.tail →
      ∀ a x, decodeWord params1 (assembleTriple t) ≠ .jmp a x ∧ decodeWord params1 (assembleTriple t) ≠ .call a x) := by
  refine ⟨by decide, by decide, fun l t h a x => ?_⟩
  have raw1 : decodeWord params1 (assembleTriple ⟨0x33, 1, 2⟩) = .any 0x33 1 2 := by decide
  have raw2 : decodeWord params1 (assembleTriple ⟨0, 0, 0⟩) = .nop := by decide
  simp only [source1, List.tail_cons, List.mem_cons, Prod.mk.injEq, List.not_mem_nil, or_false, reduceCtorEq, and_false,
    false_or, SourceItem.fields.injEq] at h
  rcases h with ⟨-, rfl⟩ | ⟨-, rfl⟩
  · simp [raw1]
  · simp [raw2]
theorem witness_StepKeepsCanonicalMemory :
    (asking State.reset [⟨.bootstrapOwner, .write⟩]).mem.wf = true ∧
    step (asking State.reset [⟨.bootstrapOwner, .write⟩]) = .next booted := ⟨rfl, rfl⟩
theorem witness_StepKeepsLifecycle : (asking State.reset [⟨.bootstrapOwner, .write⟩]).InLifecycle ∧
    step (asking State.reset [⟨.bootstrapOwner, .write⟩]) = .next booted ∧
    State.reset.condition = .constructed ∧ booted.condition = .initialized :=
  ⟨reset_inLifecycle, rfl, rfl, by simp [State.condition, booted_initDone]⟩
theorem witness_FlagIsSetOnly : step (asking State.reset [⟨.bootstrapOwner, .write⟩]) = .next booted ∧
    booted.initDone ≠ State.reset.initDone ∧ step booted = .next booted ∧ booted.initDone = true :=
  ⟨rfl, by simp [booted_initDone, State.reset], step_idle (by simp [booted, State.reset]), booted_initDone⟩
theorem witness_OnlyFirstWriteChangesBlock :
    step (asking State.reset [⟨.bootstrapOwner, .write⟩]) = .next booted ∧
    (booted.mem ≠ State.reset.mem ∨ booted.initDone ≠ State.reset.initDone) :=
  ⟨rfl, .inr (by simp [booted_initDone, State.reset])⟩
theorem witness_InitializedMemoryNeverChanges : booted.initDone = true ∧
    Host.Core.run Sys2Proof.core 0 booted = .next booted := ⟨booted_initDone, rfl⟩
theorem witness_NoWriteNoChange :
    (∀ q ∈ (asking booted [⟨.debugger, .subroutineName 0⟩]).requests.take 1, q.operation ≠ .write) ∧
    ∃ t, Host.Core.run Sys2Proof.core 1 (asking booted [⟨.debugger, .subroutineName 0⟩]) = .next t :=
  ⟨by simp [asking], _, rfl⟩
theorem witness_ReadIsOldOrImage : (asking booted [⟨.debugger, .read 255⟩]).InLifecycle ∧
    (asking booted [⟨.debugger, .read 255⟩]).requests = ⟨.debugger, .read 255⟩ :: [] := ⟨booted_inLifecycle, rfl⟩
theorem witness_BootOrderedReadsSeeProgram :
    (asking State.reset [⟨.bootstrapOwner, .write⟩, ⟨.fetchEngine, .read 0⟩]).InLifecycle ∧
    (asking State.reset [⟨.bootstrapOwner, .write⟩, ⟨.fetchEngine, .read 0⟩]).BootOrdered ∧
    ∃ t, Host.Core.run Sys2Proof.core 1
        (asking State.reset [⟨.bootstrapOwner, .write⟩, ⟨.fetchEngine, .read 0⟩]) = .next t ∧
      t.requests = ⟨.fetchEngine, .read 0⟩ :: [] :=
  ⟨reset_inLifecycle, rfl, _, rfl, State.populateOnce_requests _ _⟩
theorem booted_mem : booted.mem = image demoConfig := populateOnce_image demoConfig rfl rfl
theorem witness_NoPartialPopulationSeen :
    ∃ (s t u v : State) (w w' : Word), s.InLifecycle ∧
      s.requests = ⟨.debugger, .read 0⟩ :: [⟨.debugger, .read 8⟩] ∧ step s = .next t ∧
      t.response = some (.dataO w) ∧ w ≠ 0 ∧ Host.Core.run Sys2Proof.core 0 t = .next u ∧
      u.requests = ⟨.debugger, .read 8⟩ :: [] ∧ step u = .next v ∧ v.response = some (.dataO w') := by
  refine ⟨asking booted [⟨.debugger, .read 0⟩, ⟨.debugger, .read 8⟩], _, _, _, memRead booted.mem 0, _,
    booted_inLifecycle, rfl, rfl, rfl, ?_, rfl, rfl, rfl, rfl⟩
  rw [booted_mem, memRead_image_zero]
  intro h
  have := (targetWord_eq_nop ..).1 h
  simp at this
theorem witness_OnePopulation : (asking State.reset [⟨.debugger, .write⟩, ⟨.bootstrapOwner, .write⟩]).InLifecycle ∧
    ∃ q ∈ (asking State.reset [⟨.debugger, .write⟩, ⟨.bootstrapOwner, .write⟩]).requests, q.operation = .write :=
  ⟨reset_inLifecycle, ⟨.debugger, .write⟩, by simp [asking], rfl⟩
theorem witness_ReadersCommute : booted.initDone = true ∧
    ∃ t u v, step { booted with requests := ⟨.debugger, .read 0⟩ :: ⟨.debugger, .read 8⟩ :: [] } = .next t ∧
      step t = .next u ∧ step { booted with requests := ⟨.debugger, .read 8⟩ :: [] } = .next v :=
  ⟨booted_initDone, _, _, _, rfl, rfl, rfl⟩
theorem witness_ReadersCannotWrite :
    (asking booted [⟨.fetchEngine, .read 0⟩]).requests = ⟨.fetchEngine, .read 0⟩ :: [] ∧
    Agent.fetchEngine ≠ .bootstrapOwner ∧ permitted .fetchEngine (.read 0) = true ∧
    ∃ t, step (asking booted [⟨.fetchEngine, .read 0⟩]) = .next t := by
  refine ⟨rfl, by decide, rfl, ?_⟩
  rw [step_request (q := ⟨.fetchEngine, .read 0⟩) (rest := []) rfl]
  cases requestInstr (asking booted [⟨.fetchEngine, .read 0⟩]).mem ⟨.fetchEngine, .read 0⟩ <;> exact ⟨_, rfl⟩
theorem witness_StepKeepsDuties :
    step (asking State.reset [⟨.bootstrapOwner, .write⟩]) = .next booted ∧
    (asking State.reset [⟨.bootstrapOwner, .write⟩]).AllPermitted ∧
    (asking State.reset [⟨.bootstrapOwner, .write⟩]).BootOrdered :=
  ⟨rfl, by simp [State.AllPermitted, asking, permitted], rfl⟩
theorem witness_FlagObservableAtZero : booted.InLifecycle ∧ State.reset.InLifecycle :=
  ⟨booted_inLifecycle, reset_inLifecycle⟩
theorem witness_CanonicalMemoryExtensional : (image configP1).wf = true ∧
    ∀ a, memRead (image configP1) a = memRead (image configP1) a := ⟨by decide, fun _ => rfl⟩

end Sys2Proof.Tests
end

section
/-! PROOFS. A step on a request that is no instruction fetch runs the operation asked for (`00_scope.md` R13, R176). -/

namespace Sys2Proof.Machine

/-- Only a `read` asked for by the fetch engine is an instruction fetch (R44). -/
theorem requestInstr_eq_operationInstr (m : Memory) {q : Request}
    (h : q.agent = .fetchEngine → ∀ a, q.operation ≠ .read a) :
    requestInstr m q = operationInstr q.operation := by
  unfold requestInstr
  split
  · next a hag hop => exact absurd hop (h hag a)
  · rfl

theorem step_operation {s : State} {q : Request} {rest : List Request} (hq : s.requests = q :: rest)
    (h : q.agent = .fetchEngine → ∀ a, q.operation ≠ .read a) :
    step s = exec (operationInstr q.operation) (s.accept rest) := by
  rw [step_request hq, requestInstr_eq_operationInstr s.mem h]

theorem submit_requests_of_idle {s : State} (h : s.requests = []) (q : Request) :
    (s.submit q).requests = [q] := by
  rw [State.submit_requests, h, List.nil_append]

/-- Settles O32: the idle step, the step on a submitted request, and one case per operation that is no fetch. -/
theorem stepRunsOperation : Obligations.StepRunsOperation := by
  refine fun s => ⟨step_idle, ?_, ?_, ?_, ?_, ?_⟩
  · exact fun q hs => step_request (submit_requests_of_idle hs q)
  · exact fun _ _ hs => step_operation hs fun _ _ => nofun
  · exact fun _ _ _ hs => step_operation hs fun _ _ => nofun
  · exact fun _ _ _ _ _ hs => step_operation hs fun _ _ => nofun
  · exact fun _ _ _ hag hs => step_operation hs fun hfetch => absurd hfetch hag

end Sys2Proof.Machine
end

section
/-! PROOFS. What a step can do to the block's own state, the memory and the flag (`10_state.md` R24, R25, R34, R36). -/

namespace Sys2Proof.Machine

/-- A `write` request runs the population, whoever asks (R102). -/
theorem step_write {s : State} {ag : Agent} {rest : List Request} (hq : s.requests = ⟨ag, .write⟩ :: rest) :
    step s = .next ((s.accept rest).populateOnce demoConfig) := by
  rw [step_operation hq fun _ _ => nofun]
  rfl

theorem State.populateOnce_mem_first (c : ProgramConfig) {s : State} (h : s.initDone = false) :
    (s.populateOnce c).mem = populateFrom s.mem 0 c.program := by
  rw [State.populateOnce_first c s h]

/-- The block after a step is the block before, unless the step is the first `write` (R25, R110). -/
theorem step_block_cases {s t : State} (h : step s = .next t) :
    (t.mem = s.mem ∧ t.initDone = s.initDone) ∨
    ((∃ ag rest, s.requests = ⟨ag, .write⟩ :: rest) ∧ s.initDone = false ∧ t.initDone = true ∧
      t.mem = populateFrom s.mem 0 demoConfig.program) := by
  rcases step_cases h with ⟨-, rfl⟩ | ⟨⟨ag, op⟩, rest, hq, ⟨hop, rfl⟩ | ⟨-, r, rfl⟩⟩
  · exact .inl ⟨rfl, rfl⟩
  · cases hi : s.initDone with
    | false =>
      obtain rfl : op = .write := hop
      have hmem := State.populateOnce_mem_first demoConfig ((s.accept_initDone rest).trans hi)
      rw [State.accept_mem] at hmem
      exact .inr ⟨⟨ag, rest, hq⟩, rfl, State.populateOnce_initDone _ _, hmem⟩
    | true =>
      rw [State.populateOnce_later demoConfig _ ((s.accept_initDone rest).trans hi)]
      exact .inl ⟨rfl, hi⟩
  · exact .inl ⟨rfl, rfl⟩

/-- Once the flag is set a step leaves the block as it is (R36). -/
theorem step_initialized {s t : State} (hi : s.initDone = true) (h : step s = .next t) :
    t.mem = s.mem ∧ t.initDone = true := by
  rcases step_block_cases h with ⟨hmem, hflag⟩ | ⟨-, hclear, -, -⟩
  · exact ⟨hmem, hflag.trans hi⟩
  · rw [hi] at hclear
    cases hclear

theorem State.condition_eq_initialized (s : State) : s.condition = .initialized ↔ s.initDone = true := by
  simp [State.condition]

theorem State.condition_eq_constructed (s : State) : s.condition = .constructed ↔ s.initDone = false := by
  simp [State.condition]

/-- The lifecycle is about the block alone: the memory and the flag (R34). -/
theorem State.InLifecycle.of_block_eq {s t : State} (hs : s.InLifecycle) (hmem : t.mem = s.mem)
    (hflag : t.initDone = s.initDone) : t.InLifecycle := by
  unfold State.InLifecycle
  rw [hmem, hflag]
  exact hs

theorem State.InLifecycle.mem_of_constructed {s : State} (hs : s.InLifecycle) (hi : s.initDone = false) :
    s.mem = Memory.blank := by
  rcases hs with ⟨-, hmem⟩ | ⟨hset, -⟩
  · exact hmem
  · rw [hi] at hset
    cases hset

theorem step_keeps_lifecycle {s t : State} (hs : s.InLifecycle) (h : step s = .next t) : t.InLifecycle := by
  rcases step_block_cases h with ⟨hmem, hflag⟩ | ⟨-, hclear, hset, hmem⟩
  · exact hs.of_block_eq hmem hflag
  · rw [hs.mem_of_constructed hclear] at hmem
    exact .inr ⟨hset, hmem⟩

/-- Settles O42: a step keeps the memory or populates it, and the population keeps the form. -/
theorem stepKeepsCanonicalMemory : Obligations.StepKeepsCanonicalMemory := by
  intro s t hwf h
  rcases step_block_cases h with ⟨hmem, -⟩ | ⟨-, -, -, hmem⟩
  · rw [hmem]
    exact hwf
  · rw [hmem]
    exact populateFrom_wf hwf 0 demoConfig.program

/-- Settles O44: a set flag stays, a `write` sets it, and no other step changes it. -/
theorem flagIsSetOnly : Obligations.FlagIsSetOnly := by
  intro s t h
  refine ⟨fun hi => (step_initialized hi h).2, fun ag rest hq => ?_, fun hne => ?_⟩
  · rw [step_write hq] at h
    cases h
    exact State.populateOnce_initDone _ _
  · rcases step_block_cases h with ⟨-, hflag⟩ | ⟨hwrite, -, -, -⟩
    · exact absurd hflag hne
    · exact hwrite

/-- Settles O43: a constructed block stays so or becomes the image by a `write`; an initialized one stays so. -/
theorem stepKeepsLifecycle : Obligations.StepKeepsLifecycle := by
  intro s t hs h
  simp only [State.condition_eq_initialized, State.condition_eq_constructed]
  refine ⟨step_keeps_lifecycle hs h, fun hi => (step_initialized hi h).2, fun hclear hset => ?_⟩
  obtain ⟨-, -, hcause⟩ := flagIsSetOnly s t h
  exact hcause (by simp [hclear, hset])

/-- Settles O46, by induction on the number of steps. -/
theorem initializedMemoryNeverChanges : Obligations.InitializedMemoryNeverChanges := by
  intro n
  induction n with
  | zero =>
    intro s t hi h
    cases h
    exact ⟨rfl, hi⟩
  | succ n ih =>
    intro s t hi h
    obtain ⟨u, hstep, hrun⟩ := (run_succ n s t).1 h
    obtain ⟨hmem, hiu⟩ := step_initialized hi hstep
    obtain ⟨hmem', hit⟩ := ih u t hiu hrun
    exact ⟨hmem'.trans hmem, hit⟩

/-- Settles O45: a step that is not the first `write` leaves both as they were. -/
theorem onlyFirstWriteChangesBlock : Obligations.OnlyFirstWriteChangesBlock := by
  intro s t h hne
  rcases step_block_cases h with ⟨hmem, hflag⟩ | ⟨hwrite, hclear, hset, -⟩
  · exact absurd hne (by simp [hmem, hflag])
  · exact ⟨hclear, hset, hwrite⟩

end Sys2Proof.Machine
end

section
/-! PROOFS. What the memory's words say: of the flag at address 0 (`10_state.md` R32), of the whole memory by its
canonical form (log 1), and of reset and construction (R35, R100, R191). -/

namespace Sys2Proof.Machine

/-- A slot of a canonical list that reads nonzero is at or above the list's lower bound. -/
theorem le_of_slotWord_ne_nop {lo a : Nat} {m : Memory} (h : slotsWf lo m = true) (hne : slotWord m a ≠ nopWord) :
    lo ≤ a :=
  Nat.le_of_not_lt fun hlt => hne (slotWord_below h hlt)

@[simp] theorem slotWord_head (a : Nat) (w : Word) (rest : Memory) : slotWord ((a, w) :: rest) a = w := by
  simp [slotWord]

theorem slotWord_tail {a b : Nat} (hne : a ≠ b) (w : Word) (rest : Memory) :
    slotWord ((a, w) :: rest) b = slotWord rest b := by
  simp [slotWord, hne]

/-- Slot by slot, a canonical list that lists something differs from the empty one. -/
theorem exists_slotWord_ne_nop {lo : Nat} {c : Nat × Word} {rest : Memory} (h : slotsWf lo (c :: rest) = true) :
    ∃ a, slotWord (c :: rest) a ≠ nopWord := by
  obtain ⟨a, w⟩ := c
  obtain ⟨-, -, hw, -⟩ := (slotsWf_cons ..).1 h
  exact ⟨a, by rwa [slotWord_head]⟩

/-- Of two canonical lists with the same word in every slot, the second lists nothing before the first one's head. That
holds both ways round, so the heads have one index. -/
theorem head_index_le_of_slotWord_eq {lo lo' a b : Nat} {w v : Word} {rest rest' : Memory}
    (h : slotsWf lo ((a, w) :: rest) = true) (h' : slotsWf lo' ((b, v) :: rest') = true)
    (heq : ∀ x, slotWord ((a, w) :: rest) x = slotWord ((b, v) :: rest') x) : b ≤ a := by
  obtain ⟨-, -, hw, -⟩ := (slotsWf_cons ..).1 h
  obtain ⟨-, hb⟩ := (slotsWf_cons ..).1 h'
  refine le_of_slotWord_ne_nop ((slotsWf_cons ..).2 ⟨le_refl b, hb⟩) (a := a) ?_
  rwa [← heq, slotWord_head]

/-- Canonical lists with the same word in every slot are the same list. -/
theorem slotsWf_ext {lo lo' : Nat} {m m' : Memory} (h : slotsWf lo m = true) (h' : slotsWf lo' m' = true)
    (heq : ∀ x, slotWord m x = slotWord m' x) : m = m' := by
  induction m generalizing lo lo' m' with
  | nil =>
    cases m' with
    | nil => rfl
    | cons c rest' =>
      obtain ⟨a, hne⟩ := exists_slotWord_ne_nop h'
      exact absurd (heq a).symm hne
  | cons c rest ih =>
    cases m' with
    | nil =>
      obtain ⟨a, hne⟩ := exists_slotWord_ne_nop h
      exact absurd (heq a) hne
    | cons c' rest' =>
      obtain ⟨a, w⟩ := c
      obtain ⟨b, v⟩ := c'
      obtain rfl : a = b :=
        Nat.le_antisymm (head_index_le_of_slotWord_eq h' h fun x => (heq x).symm)
          (head_index_le_of_slotWord_eq h h' heq)
      obtain rfl : w = v := by simpa only [slotWord_head] using heq a
      obtain ⟨-, -, -, hrest⟩ := (slotsWf_cons ..).1 h
      obtain ⟨-, -, -, hrest'⟩ := (slotsWf_cons ..).1 h'
      have htail : rest = rest' := by
        refine ih hrest hrest' fun x => ?_
        by_cases hx : a = x
        · rw [slotWord_below hrest (by omega), slotWord_below hrest' (by omega)]
        · simpa only [slotWord_tail hx] using heq x
      rw [htail]

/-- The jump at address 0 is no no-op word: its target is 8 (R121). -/
theorem memRead_image_zero_ne_nop : memRead (image demoConfig) 0 ≠ nopWord := by
  rw [memRead_image_zero]
  intro hnop
  obtain ⟨-, htarget, -⟩ := (targetWord_eq_nop ..).1 hnop
  exact absurd htarget (by decide)

/-- Settles O56: a constructed block reads 0 at address 0, an initialized one the jump. -/
theorem flagObservableAtZero : Obligations.FlagObservableAtZero := by
  rintro s (⟨hflag, hmem⟩ | ⟨hflag, hmem⟩) <;> rw [hflag, hmem]
  · exact iff_of_false (fun hne => hne (memRead_blank 0)) nofun
  · exact iff_of_true memRead_image_zero_ne_nop rfl

/-- Settles O57: a read of a canonical memory is its slot's word, and the words determine the list. -/
theorem canonicalMemoryExtensional : Obligations.CanonicalMemoryExtensional := by
  intro m m' h h' heq
  refine slotsWf_ext h h' fun a => ?_
  rw [← memRead_eq_slotWord h, ← memRead_eq_slotWord h', heq]

/-- Settles O14: the memory of both is the blank one. -/
theorem resetValues : Obligations.ResetValues := by
  refine ⟨⟨fun a _ => memRead_blank a, rfl⟩, fun s t h => ?_⟩
  obtain rfl : s.constructBlock = t := Host.Outcome.next.inj h
  exact ⟨fun a _ => memRead_blank a, s.constructBlock_initDone⟩

/-- Settles O41: reset is a blank memory with the flag clear. -/
theorem resetMeetsInvariants : Obligations.ResetMeetsInvariants :=
  ⟨blank_wf, .inl ⟨rfl, rfl⟩, State.reset.condition_eq_constructed.2 rfl⟩

end Sys2Proof.Machine
end

section
/-! PROOFS. Instruction fetch is `read` (`10_state.md` R44): whoever asks, the step on a read puts the word at the
address on the read port and leaves the block as it is (R106, R108, R109). -/

namespace Sys2Proof.Machine

/-- Running the instruction a word decodes to returns that word, under every name the decoder has for it (R78, R108). -/
theorem exec_decodeWord (w : Word) (s : State) : exec (decodeWord Config.params w) s = .next (s.deliver w) := by
  rcases decodeWord_cases Config.params w with ⟨hw, hd⟩ | ⟨-, hop, hd⟩ | ⟨-, -, hop, hd⟩ | ⟨-, -, -, hd⟩
  · rw [hd, hw]
    rfl
  · simp [hd, exec, execJmp, ← hop]
  · simp [hd, exec, execCall, ← hop]
  · simp [hd, exec, execAny]

/-- The step on a `read`, by any agent: a fetch runs the word, every other read is the operation. -/
theorem step_read {s : State} {ag : Agent} {a : Nat} {rest : List Request}
    (hq : s.requests = ⟨ag, .read a⟩ :: rest) :
    step s = .next ((s.accept rest).deliver (memRead s.mem a)) := by
  by_cases hag : ag = .fetchEngine
  · subst hag
    rw [step_request hq]
    exact exec_decodeWord _ _
  · rw [step_operation hq fun hfetch => absurd hfetch hag]
    rfl

/-- A word on the read port after the step on a `read` is the word at the address. -/
theorem eq_memRead_of_step_read {s t : State} {ag : Agent} {a : Nat} {w : Word} {rest : List Request}
    (hq : s.requests = ⟨ag, .read a⟩ :: rest) (h : step s = .next t) (hw : t.response = some (.dataO w)) :
    w = memRead s.mem a := by
  rw [step_read hq] at h
  cases h
  cases hw
  rfl

/-- Settles O31: the fetch engine's `read` is the decoded word. -/
theorem stepRunsFetchedWord : Obligations.StepRunsFetchedWord :=
  fun _ _ _ hq => step_request hq

/-- Settles O33: the decoded word and the operation `read` answer the same state. -/
theorem fetchIsRead : Obligations.FetchIsRead :=
  fun _ _ _ _ hq => step_read hq

end Sys2Proof.Machine
end

section
/-! PROOFS. Runs: each completes and does one request a step (R160, R212), keeps what every step keeps, and changes the
block by a `write` among its requests and by nothing else (R49, R57, R109). -/

namespace Sys2Proof.Machine

theorem exec_total (i : Instr) (s : State) : ∃ t, exec i s = .next t := by
  cases i <;> exact ⟨_, rfl⟩

theorem step_total (s : State) : ∃ t, step s = .next t := by
  cases hr : s.requests with
  | nil => exact ⟨s, step_idle hr⟩
  | cons q rest =>
    rw [step_request hr]
    exact exec_total _ _

theorem run_total (n : Nat) (s : State) :
    ∃ t, Host.Core.run Sys2Proof.core n s = .next t ∧ t.requests = s.requests.drop n := by
  induction n generalizing s with
  | zero => exact ⟨s, rfl, rfl⟩
  | succ n ih =>
    obtain ⟨u, hstep⟩ := step_total s
    obtain ⟨t, hrun, hreq⟩ := ih u
    refine ⟨t, (run_succ n s t).2 ⟨u, hstep, hrun⟩, ?_⟩
    rw [hreq, step_requests hstep, List.drop_drop, Nat.add_comm]

/-- What every step keeps, every run keeps. -/
theorem run_keeps {P : State → Prop} (hP : ∀ s t, P s → step s = .next t → P t) {n : Nat} {s t : State}
    (hs : P s) (h : Host.Core.run Sys2Proof.core n s = .next t) : P t := by
  induction n generalizing s with
  | zero =>
    cases h
    exact hs
  | succ n ih =>
    obtain ⟨u, hstep, hrun⟩ := (run_succ n s t).1 h
    exact ih (hP s u hs hstep) hrun

theorem run_keeps_lifecycle {n : Nat} {s t : State} (hs : s.InLifecycle)
    (h : Host.Core.run Sys2Proof.core n s = .next t) : t.InLifecycle :=
  run_keeps (fun _ _ => step_keeps_lifecycle) hs h

/-- A step whose request, if it has one, is no `write` leaves the block as it is. -/
theorem step_keeps_block {s t : State} (hno : ∀ q ∈ s.requests.take 1, q.operation ≠ .write)
    (h : step s = .next t) : t.mem = s.mem ∧ t.initDone = s.initDone := by
  rcases step_block_cases h with hkept | ⟨⟨ag, rest, hq⟩, -⟩
  · exact hkept
  · exact absurd rfl (hno ⟨ag, .write⟩ (by simp [hq]))

/-- Settles O47, by induction on the number of steps. -/
theorem noWriteNoChange : Obligations.NoWriteNoChange := by
  intro n
  induction n with
  | zero =>
    intro s t _ h
    cases h
    exact ⟨rfl, rfl⟩
  | succ n ih =>
    intro s t hno h
    obtain ⟨u, hstep, hrun⟩ := (run_succ n s t).1 h
    have hfirst : ∀ q ∈ s.requests.take 1, q.operation ≠ .write := fun q hq =>
      hno q (List.take_subset_take_left _ (by omega) hq)
    have hlater : ∀ q ∈ u.requests.take n, q.operation ≠ .write := fun q hq => by
      rw [step_requests hstep, List.take_drop] at hq
      exact hno q (Nat.add_comm 1 n ▸ List.mem_of_mem_drop hq)
    obtain ⟨hmem, hflag⟩ := step_keeps_block hfirst hstep
    obtain ⟨hmem', hflag'⟩ := ih u t hlater hrun
    exact ⟨hmem'.trans hmem, hflag'.trans hflag⟩

/-- A run that does a `write` request ends with the flag set. -/
theorem run_sets_flag {n : Nat} {s t : State} (hw : ∃ q ∈ s.requests.take n, q.operation = .write)
    (h : Host.Core.run Sys2Proof.core n s = .next t) : t.initDone = true := by
  induction n generalizing s with
  | zero => simp at hw
  | succ n ih =>
    obtain ⟨u, hstep, hrun⟩ := (run_succ n s t).1 h
    obtain ⟨⟨ag, op⟩, hmem, hop⟩ := hw
    obtain rfl : op = .write := hop
    cases hr : s.requests with
    | nil => simp [hr] at hmem
    | cons q rest =>
      rw [hr, List.take_succ_cons, List.mem_cons] at hmem
      rcases hmem with rfl | hrest
      · obtain ⟨-, hset, -⟩ := flagIsSetOnly s u hstep
        exact (initializedMemoryNeverChanges n u t (hset ag rest hr) hrun).2
      · exact ih ⟨⟨ag, .write⟩, by simpa [step_requests hstep, hr] using hrest, rfl⟩ hrun

end Sys2Proof.Machine
end

section
/-! PROOFS. What reads return over a proper life of the block: 0 before the population, the image's words after it, and
nothing in between (R48, R55, R56, R57). -/

namespace Sys2Proof.Machine

theorem State.InLifecycle.mem_of_initialized {s : State} (hs : s.InLifecycle) (hi : s.initDone = true) :
    s.mem = image demoConfig := by
  rcases hs with ⟨hclear, -⟩ | ⟨-, hmem⟩
  · rw [hi] at hclear
    cases hclear
  · exact hmem

/-- The flag alone tells what every address of a lifecycle state reads (R48). -/
theorem State.InLifecycle.memRead_eq {s : State} (hs : s.InLifecycle) (a : Nat) :
    memRead s.mem a = if s.initDone then memRead (image demoConfig) a else 0 := by
  cases hi : s.initDone with
  | false =>
    rw [hs.mem_of_constructed hi]
    exact memRead_blank a
  | true =>
    rw [hs.mem_of_initialized hi]
    rfl

/-- Settles O50: a step on a read delivers the word at the address, which the flag tells. -/
theorem readIsOldOrImage : Obligations.ReadIsOldOrImage := by
  intro s ag a rest hs hq
  refine ⟨_, step_read hq, hs.of_block_eq rfl rfl, ?_⟩
  rw [State.deliver_response, hs.memRead_eq]

/-- Once the flag is set any request may be next. -/
@[simp] theorem bootOrdered_true (qs : List Request) : bootOrdered true qs = true := by
  simp [bootOrdered]

/-- A first request that is no `write` leaves the boot order to the rest, the flag being as it was. -/
theorem bootOrdered_tail {b : Bool} {q : Request} {rest : List Request} (h : bootOrdered b (q :: rest) = true)
    (hq : q.operation ≠ .write) : bootOrdered b rest = true := by
  cases b with
  | true => exact bootOrdered_true rest
  | false =>
    obtain ⟨ag, op⟩ := q
    cases op with
    | assemble o a b => exact h
    | write => exact absurd rfl hq
    | read a => cases h
    | subroutineName a => cases h

theorem step_keeps_bootOrdered {s t : State} (hs : s.BootOrdered) (h : step s = .next t) : t.BootOrdered := by
  rcases step_cases h with ⟨-, rfl⟩ | ⟨q, rest, hr, ⟨-, rfl⟩ | ⟨hq, r, rfl⟩⟩
  · exact hs
  · rw [State.BootOrdered, State.populateOnce_initDone]
    exact bootOrdered_true _
  · rw [State.BootOrdered, hr] at hs
    exact bootOrdered_tail hs hq

/-- In the boot order no `read` is next while the flag is clear (R55, R194). -/
theorem State.BootOrdered.initialized_of_read {s : State} {ag : Agent} {a : Nat} {rest : List Request}
    (hs : s.BootOrdered) (hq : s.requests = ⟨ag, .read a⟩ :: rest) : s.initDone = true := by
  rw [State.BootOrdered, hq] at hs
  cases hi : s.initDone with
  | true => rfl
  | false =>
    rw [hi] at hs
    cases hs

/-- Settles O51: the run keeps the lifecycle and the boot order, under which a next `read` finds the flag set. -/
theorem bootOrderedReadsSeeProgram : Obligations.BootOrderedReadsSeeProgram := by
  intro n s t ag a rest hs hboot hrun hq
  have ht : t.InLifecycle := run_keeps_lifecycle hs hrun
  have htboot : t.BootOrdered := run_keeps (fun _ _ => step_keeps_bootOrdered) hboot hrun
  refine ⟨_, step_read hq, ?_⟩
  rw [State.deliver_response, ht.mem_of_initialized (htboot.initialized_of_read hq)]

/-- The call at address 8 is no no-op word: its target is 18 (R122). -/
theorem memRead_image_eight_ne_nop : memRead (image demoConfig) 8 ≠ nopWord := by
  rw [memRead_image_eight]
  intro hnop
  obtain ⟨-, htarget, -⟩ := (targetWord_eq_nop ..).1 hnop
  exact absurd htarget (by decide)

/-- Settles O52: the first read shows the flag set, and from then on the memory is the image. -/
theorem noPartialPopulationSeen : Obligations.NoPartialPopulationSeen := by
  intro n s t u v ag ag' w w' rest rest' hs hq hstep hw hne hrun hq' hstep' hw'
  rw [eq_memRead_of_step_read hq hstep hw] at hne
  have hsi : s.initDone = true := (flagObservableAtZero s hs).1 hne
  obtain ⟨-, hti⟩ := step_initialized hsi hstep
  obtain ⟨-, hui⟩ := initializedMemoryNeverChanges n t u hti hrun
  have hu : u.InLifecycle := run_keeps_lifecycle (step_keeps_lifecycle hs hstep) hrun
  rw [eq_memRead_of_step_read hq' hstep' hw', hu.mem_of_initialized hui]
  exact memRead_image_eight_ne_nop

/-- Settles O53: the run completes, a `write` in it sets the flag, and in the lifecycle a set flag means the image. -/
theorem onePopulation : Obligations.OnePopulation := by
  intro s hs hw
  obtain ⟨t, hrun, hreq⟩ := run_total s.requests.length s
  have hti : t.initDone = true := run_sets_flag (by rwa [List.take_length]) hrun
  refine ⟨t, hrun, hti, (run_keeps_lifecycle hs hrun).mem_of_initialized hti, ?_⟩
  rw [hreq, List.drop_length]

/-- An instruction's output depends on the memory and on what stood on the port, neither on the flag nor on what is
asked for. -/
theorem exec_response_congr {i : Instr} {s s' t t' : State} (hmem : s.mem = s'.mem)
    (hresp : s.response = s'.response) (h : exec i s = .next t) (h' : exec i s' = .next t') :
    t.response = t'.response := by
  cases i with
  | read a =>
    cases h
    cases h'
    rw [State.respond_response, State.respond_response, hmem]
  | write =>
    cases h
    cases h'
    rw [State.populateOnce_response, State.populateOnce_response, hresp]
  | construct =>
    cases h
    cases h'
    exact hresp
  | _ =>
    cases h
    cases h'
    rfl

/-- A request's output depends on the memory alone. -/
theorem step_response_congr {s s' t t' : State} {q : Request} {rest rest' : List Request} (hmem : s.mem = s'.mem)
    (hq : s.requests = q :: rest) (hq' : s'.requests = q :: rest') (h : step s = .next t) (h' : step s' = .next t') :
    t.response = t'.response := by
  rw [step_request hq] at h
  rw [step_request hq', ← hmem] at h'
  exact exec_response_congr (s := s.accept rest) (s' := s'.accept rest') hmem rfl h h'

/-- Settles O54: with the flag set the request before leaves the memory, so the output, as it is. -/
theorem readersCommute : Obligations.ReadersCommute := by
  intro s t u v q q' rest rest' hi hfirst hsecond halone
  obtain ⟨hmem, -⟩ := step_initialized (s := { s with requests := q' :: q :: rest }) hi hfirst
  exact step_response_congr (s' := { s with requests := q :: rest' }) hmem (step_requests hfirst) rfl hsecond halone

end Sys2Proof.Machine
end

section
/-! PROOFS. The word format (`30_encoding.md` R65 to R73): what a packed word is as a number and as bits, which fields
it gives back, its container, and the split of a 16-bit value. -/

namespace Sys2Proof.Machine

/-- The source's OR of shifts: no field is cut off by the word's 24 bits (R67). -/
theorem packWord_toNat_or (o a b : Byte) :
    (packWord o a b).toNat = (o.toNat <<< 16) ||| (a.toNat <<< 8) ||| b.toNat := by
  have ho := o.isLt
  have ha := a.isLt
  have hb := b.isLt
  simp only [packWord, BitVec.toNat_or, BitVec.toNat_shiftLeft, BitVec.toNat_setWidth, Nat.shiftLeft_eq]
  rw [Nat.mod_eq_of_lt (a := o.toNat) (by omega), Nat.mod_eq_of_lt (a := a.toNat) (by omega),
    Nat.mod_eq_of_lt (a := b.toNat) (by omega), Nat.mod_eq_of_lt (by omega), Nat.mod_eq_of_lt (by omega)]

/-- Settles O1: packing and extraction undo each other, so a word's fields are the one triple it encodes. -/
theorem fieldRoundTrip : Obligations.FieldRoundTrip := by
  simp only [Obligations.FieldRoundTrip, assemble_bytes]
  refine ⟨fun o a b => ⟨opcodeOf_packWord o a b, operand1Of_packWord o a b, operand2Of_packWord o a b⟩,
    packWord_fields, fun w => ⟨(opcodeOf w, operand1Of w, operand2Of w), packWord_fields w, ?_⟩⟩
  rintro ⟨o, a, b⟩ rfl
  simp

/-- Settles O2: the sum, the OR, and the bound of a 24-bit number. -/
theorem wordNumericValue : Obligations.WordNumericValue := by
  intro o a b
  rw [assemble_bytes]
  exact ⟨packWord_toNat o a b, packWord_toNat_or o a b, Nat.le_of_lt_succ (packWord o a b).isLt⟩

/-- Settles O3: each extraction as a number and bit by bit. -/
theorem fieldExtraction : Obligations.FieldExtraction := by
  refine fun w => ⟨⟨opcodeOf_toNat w, fun i hi => ?_⟩, ⟨operand1Of_toNat w, fun i hi => ?_⟩,
    ⟨operand2Of_toNat w, fun i hi => ?_⟩⟩
  · simp [opcodeOf, hi]
  · simp [operand1Of, hi]
  · simp [operand2Of, hi]

/-- `CONTAINER_W` is at least `WORD_W` (R22). -/
theorem word_le_containerW (p : Params) : 24 ≤ p.containerW :=
  Nat.le_add_right 24 p.containerExtra

/-- A word in its container is the same number (R22). -/
theorem container_toNat (p : Params) (w : Word) : (container p w).toNat = w.toNat :=
  BitVec.toNat_setWidth_of_le (word_le_containerW p)

/-- Settles O9: zero extension keeps the number, clears the bits above and is undone by taking the low 24 bits. -/
theorem wideContainer : Obligations.WideContainer := by
  refine fun p w => ⟨word_le_containerW p, container_toNat p w, fun i hi => ?_, ?_⟩
  · rw [container, BitVec.getLsbD_setWidth, BitVec.getLsbD_of_ge w i hi, Bool.and_false]
  · exact BitVec.setWidth_setWidth_of_le w (word_le_containerW p)

theorem highByte_toNat (v : BitVec 16) : (highByte v).toNat = v.toNat / 256 := by
  have := v.isLt
  simp [highByte, BitVec.extractLsb'_toNat, Nat.shiftRight_eq_div_pow]
  omega

theorem lowByte_toNat (v : BitVec 16) : (lowByte v).toNat = v.toNat % 256 := by
  simp [lowByte, BitVec.extractLsb'_toNat]

/-- Settles O10: the halves are the quotient and the remainder by 256. -/
theorem sixteenBitSplit : Obligations.SixteenBitSplit := by
  intro v
  rw [highByte_toNat, lowByte_toNat]
  exact ⟨rfl, rfl, Nat.div_add_mod' v.toNat 256⟩

end Sys2Proof.Machine
end

section
/-! PROOFS. The decoder and the encoder of the word rows are inverse to each other, under every choice of the open
parameters (`30_encoding.md` R65, R66, R78; the naming order is log 7). -/

namespace Sys2Proof.Machine

/-! A word row is well-formed when the decoder's order gives its word that row's name. -/

theorem wellFormed_any_iff (p : Params) (o a b : Byte) :
    (Instr.any o a b).wellFormed p = true ↔ packWord o a b ≠ nopWord ∧ o ≠ p.opJmp ∧ o ≠ p.opCall := by
  simp [Instr.wellFormed, packWord_eq_nop, not_and_or, or_assoc, and_assoc, -not_and]

theorem wellFormed_jmp_iff (p : Params) (t x : Byte) :
    (Instr.jmp t x).wellFormed p = true ↔ targetWord p.opJmp p.jmpTargetSlot t x ≠ nopWord := by
  simp [Instr.wellFormed, targetWord_eq_nop, not_and_or, or_assoc, -not_and]

theorem wellFormed_call_iff (p : Params) (t y : Byte) :
    (Instr.call t y).wellFormed p = true ↔
      p.opCall ≠ p.opJmp ∧ targetWord p.opCall p.callTargetSlot t y ≠ nopWord := by
  simp [Instr.wellFormed, targetWord_eq_nop, not_and_or, or_assoc, -not_and]

@[simp] theorem decodeWord_nop (p : Params) : decodeWord p nopWord = .nop := by
  simp [decodeWord]

theorem decodeWord_packWord {p : Params} {o a b : Byte} (h0 : packWord o a b ≠ nopWord) (hj : o ≠ p.opJmp)
    (hc : o ≠ p.opCall) : decodeWord p (packWord o a b) = .any o a b := by
  simp [decodeWord, h0, hj, hc]

theorem decodeWord_jmp {p : Params} {t x : Byte} (h0 : targetWord p.opJmp p.jmpTargetSlot t x ≠ nopWord) :
    decodeWord p (targetWord p.opJmp p.jmpTargetSlot t x) = .jmp t x := by
  simp [decodeWord, h0]

theorem decodeWord_call {p : Params} {t y : Byte} (hne : p.opCall ≠ p.opJmp)
    (h0 : targetWord p.opCall p.callTargetSlot t y ≠ nopWord) :
    decodeWord p (targetWord p.opCall p.callTargetSlot t y) = .call t y := by
  simp [decodeWord, h0, hne]

/-- A word with opcode `op` is the jump or call word of `op` with the word's own operands. -/
theorem targetWord_of_opcodeOf {op : Byte} {w : Word} (h : opcodeOf w = op) (slot : OperandSlot) :
    targetWord op slot (targetOf slot w) (otherOf slot w) = w := by
  rw [← h, targetWord_fields]

/-- Settles O11, row by row: a well-formed row's word passes the tests before that row's and meets its own; an
operation has no word. -/
theorem decodeEncodeWords : Obligations.DecodeEncodeWords := by
  intro p i w hwf henc
  cases i with
  | any o a b =>
    obtain ⟨h0, hj, hc⟩ := (wellFormed_any_iff p o a b).1 hwf
    cases henc
    exact decodeWord_packWord h0 hj hc
  | nop =>
    cases henc
    exact decodeWord_nop p
  | jmp t x =>
    cases henc
    exact decodeWord_jmp ((wellFormed_jmp_iff p t x).1 hwf)
  | call t y =>
    obtain ⟨hne, h0⟩ := (wellFormed_call_iff p t y).1 hwf
    cases henc
    exact decodeWord_call hne h0
  | _ => cases henc

/-- Settles O12, by the decoder's four answers: what the tests found of the word is the row's well-formedness. -/
theorem encodeDecodeWords : Obligations.EncodeDecodeWords := by
  intro p w
  rcases decodeWord_cases p w with ⟨h0, hd⟩ | ⟨h0, hj, hd⟩ | ⟨h0, hj, hc, hd⟩ | ⟨h0, hj, hc, hd⟩ <;> rw [hd]
  · exact ⟨rfl, congrArg some h0.symm⟩
  · have hw := targetWord_of_opcodeOf hj p.jmpTargetSlot
    exact ⟨(wellFormed_jmp_iff ..).2 (hw.trans_ne h0), congrArg some hw⟩
  · have hw := targetWord_of_opcodeOf hc p.callTargetSlot
    exact ⟨(wellFormed_call_iff ..).2 ⟨hc ▸ hj, hw.trans_ne h0⟩, congrArg some hw⟩
  · have hw := packWord_fields w
    exact ⟨(wellFormed_any_iff ..).2 ⟨hw.trans_ne h0, hj, hc⟩, congrArg some hw⟩

/-- Settles O13: four closed words. -/
theorem decodeSanityWords : Obligations.DecodeSanityWords :=
  ⟨by decide, by decide, by decide, by decide⟩

theorem decodeBits_of_lt (p : Params) {nbits : Nat} (w : Nat) (h : nbits < 24) :
    decodeBits p nbits w = .error (.shorterThanAWord nbits) := by
  simp [decodeBits, wordOfBits, h]

theorem decodeBits_of_gt (p : Params) {nbits : Nat} (w : Nat) (h : 24 < nbits) :
    decodeBits p nbits w = .error (.longerThanAWord nbits) := by
  simp [decodeBits, wordOfBits, show ¬nbits < 24 by omega, show nbits ≠ 24 by omega]

theorem decodeBits_word (p : Params) (w : Nat) :
    decodeBits p 24 w = .ok (decodeWord p (BitVec.ofNat 24 w)) := rfl

/-- The table decoder answers exactly on 24 bits (R66). -/
theorem decodeTableWord_isSome_iff (nbits w : Nat) : (decodeTableWord nbits w).isSome = true ↔ nbits = 24 := by
  rcases Nat.lt_trichotomy nbits 24 with h | rfl | h
  · simp [decodeTableWord, decodeBits_of_lt Config.params w h, h.ne]
  · simp [decodeTableWord, decodeBits_word]
  · simp [decodeTableWord, decodeBits_of_gt Config.params w h, h.ne']

/-- Settles O58: too few bits, too many, and any 24. -/
theorem everyInstructionIsOneWord : Obligations.EveryInstructionIsOneWord := by
  refine ⟨fun p _ w => decodeBits_of_lt p w, fun p _ w => decodeBits_of_gt p w, fun p w => ?_,
    decodeTableWord_isSome_iff⟩
  rw [decodeBits_word, BitVec.ofNat_toNat, BitVec.setWidth_eq]

end Sys2Proof.Machine
end

section
/-! PROOFS. The out-of-range fallback of `read` is the no-op word (R79, R106, R162). -/

namespace Sys2Proof.Machine

/-- `read` answers by the word at the address alone (R106). -/
theorem exec_read_congr {s : State} {a b : Nat} (h : memRead s.mem a = memRead s.mem b) :
    exec (.read a) s = exec (.read b) s := by
  simp only [exec, execRead, h]

theorem memRead_of_lt_capacity (m : Memory) {a : Nat} (h : a < capacity) : memRead m a = slotWord m a :=
  if_pos h

/-- Settles O26: the fallback is the no-op word, which is what the slot holds. -/
theorem fallbackIndistinguishable : Obligations.FallbackIndistinguishable := by
  intro s a b ha hb hslot
  refine exec_read_congr ?_
  rw [memRead_of_capacity_le s.mem ha, memRead_of_lt_capacity s.mem hb, hslot]
  rfl

end Sys2Proof.Machine
end

section
/-! PROOFS. Positions, targets and ranges derived from one labelled source list agree (`43_symbol_table.md` R149,
`70_reset_and_hazards.md` R203; log 24), and the demonstration program is such a list's configuration. -/

namespace Sys2Proof.Machine

/-- In the ranges of a source list a symbolic address constant is the position of an entry with that label, and its
name is that label. -/
theorem labelAddress_rangesFrom {α : Type} {es : List (Option String × α)} {name : String} {a : Nat}
    (h : labelAddress (rangesFrom 0 es) name = some a) :
    (∃ item, es[a]? = some (some name, item)) ∧ lookupName (rangesFrom 0 es) a = name := by
  obtain ⟨r, hr, rfl, rfl⟩ := labelAddress_some h
  obtain ⟨⟨k, item, hk, hstart⟩, -, -⟩ := rangesFrom_label hr
  rw [Nat.zero_add] at hstart
  exact ⟨⟨item, hstart ▸ hk⟩, lookupName_of_cover (rangesFrom_cover 0 es) hr⟩

/-- A labelled position of a source list has its own label's name (R149). -/
theorem lookupName_rangesFrom {α : Type} {es : List (Option String × α)} {i : Nat} {name : String} {item : α}
    (h : es[i]? = some (some name, item)) : lookupName (rangesFrom 0 es) i = name := by
  obtain ⟨r, hr, hstart, rfl⟩ := rangesFrom_at_label h 0
  rw [Nat.zero_add] at hstart
  exact hstart ▸ lookupName_of_cover (rangesFrom_cover 0 es) hr

/-- An entry whose target is written as a label, a jump or a call: its word has the opcode, the other operand and, as its
target, the label's address, which a byte holds because the list fits the memory. -/
theorem labelled_target {es : List (Option String × SourceItem)} {c : ProgramConfig} {op : Byte}
    {slot : OperandSlot} {i : Nat} {name : String} {x : Byte} {t : Triple} (hranges : c.ranges = rangesFrom 0 es)
    (hfit : es.length ≤ capacity) (hi : c.program[i]? = some t)
    (ht : (labelAddress c.ranges name).map (fun a => targetTriple op slot (BitVec.ofNat 8 a) x) = some t) :
    ∃ a u item, labelAddress c.ranges name = some a ∧ es[a]? = some (some name, item) ∧ c.program[i]? = some u ∧
      opcodeOf (assembleTriple u) = op ∧ (targetOf slot (assembleTriple u)).toNat = a ∧
      otherOf slot (assembleTriple u) = x ∧ lookupName c.ranges a = name := by
  obtain ⟨a, ha, rfl⟩ := Option.map_eq_some_iff.1 ht
  obtain ⟨⟨item, hitem⟩, hname⟩ := labelAddress_rangesFrom (hranges ▸ ha)
  have hpos : a < es.length := (List.getElem?_eq_some_iff.1 hitem).1
  have hbyte : (BitVec.ofNat 8 a).toNat = a := Nat.mod_eq_of_lt (hpos.trans_le hfit)
  refine ⟨a, _, item, ha, hitem, hi, ?_, ?_, ?_, hranges ▸ hname⟩ <;> simp [hbyte]

/-- Settles O59: an item's triple is what resolving its label in the derived ranges gives. -/
theorem sourceTargetsFollowLabels : Obligations.SourceTargetsFollowLabels := by
  intro p es c h
  obtain ⟨hranges, hprogram⟩ := configOfSource_some h
  obtain ⟨hlen, hentry⟩ := resolveAll_some hprogram
  rw [← hranges] at hentry
  have hfit : es.length ≤ capacity := hlen ▸ c.fits
  refine ⟨hlen, fun i name item hi => hranges ▸ lookupName_rangesFrom hi, fun i l t hi => ?_,
    fun i l name x hi => ?_, fun i l name y hi => ?_⟩ <;> obtain ⟨t', ht', hres⟩ := hentry i l _ hi
  · cases hres
    exact ht'
  · exact labelled_target hranges hfit ht' hres
  · exact labelled_target hranges hfit ht' hres

/-- A program and a table are their configuration's (R105). -/
theorem make?_program_ranges (c : ProgramConfig) : ProgramConfig.make? c.program c.ranges = some c :=
  dif_pos c.fits

/-- A source list derives the configuration with its ranges and its resolved items. -/
theorem configOfSource_eq {p : Params} {es : List (Option String × SourceItem)} {c : ProgramConfig}
    (hranges : rangesFrom 0 es = c.ranges) (hprogram : resolveAll p c.ranges es = some c.program) :
    configOfSource p es = some c := by
  simp only [configOfSource, hranges, hprogram, make?_program_ranges]

/-- A source list given by index resolves to the triples given by index. -/
theorem resolveAll_map {p : Params} {rs : List SubroutineRange} {label : Nat → Option String}
    {item : Nat → SourceItem} {triple : Nat → Triple} (h : ∀ i, resolveItem p rs (item i) = some (triple i))
    (is : List Nat) : resolveAll p rs (is.map fun i => (label i, item i)) = some (is.map triple) := by
  induction is with
  | nil => rfl
  | cons i is ih => simp only [List.map_cons, resolveAll, h, ih]

theorem labelAddress_demoRanges_main : labelAddress demoRanges "main" = some 8 := by decide

theorem labelAddress_demoRanges_setup : labelAddress demoRanges "setup" = some 18 := by decide

/-- The demonstration source's ranges are those of R141: they depend on its labels alone. -/
theorem rangesFrom_demoSource (x y : Byte) (free : Nat → Byte × Byte × Byte) :
    rangesFrom 0 (demoSource x y free) = demoRanges := rfl

/-- With `main` at 8 and `setup` at 18 the source's items are the program's entries (R121, R122). -/
theorem resolveItem_demoItem (p : Params) (x y : Byte) (free : Nat → Byte × Byte × Byte) (i : Nat) :
    resolveItem p demoRanges (demoItem x y free i) = some (demoTriple p x y free i) := by
  by_cases h0 : i = 0
  · simp [demoItem, demoTriple, resolveItem, h0, labelAddress_demoRanges_main]
  by_cases h8 : i = 8
  · simp [demoItem, demoTriple, resolveItem, h8, labelAddress_demoRanges_setup]
  · simp [demoItem, demoTriple, resolveItem, h0, h8]

/-- Settles O40: the derivation's ranges and triples are the demonstration's, and the image holds the two targets. -/
theorem targetsAgreeWithLabels : Obligations.TargetsAgreeWithLabels := by
  refine ⟨fun p x y free => ?_, labelAddress_demoRanges_main, labelAddress_demoRanges_setup, ?_, ?_⟩
  · exact configOfSource_eq (rangesFrom_demoSource x y free) (resolveAll_map (resolveItem_demoItem p x y free) _)
  · rw [memRead_image_zero, targetOf_targetWord]
  · rw [memRead_image_eight, targetOf_targetWord]

end Sys2Proof.Machine
end

section
/-! PROOFS. The encoder (`40_encoder.md` R90 to R97): its inputs count modulo 256, its results are the words, each once
and in the order of their triples, and each input has its own eight bits. -/

namespace Sys2Proof.Machine

/-- `assemble`'s whole effect: its word on the output port (R90, R92). -/
theorem exec_assemble (o a b : Int) (s : State) :
    exec (.assemble o a b) s = .next (s.respond (.wordO (assemble o a b))) := rfl

/-- Inputs with the same remainder modulo 256 have the same field value (R93). -/
theorem trunc8_congr {v v' : Int} (h : v % 256 = v' % 256) : trunc8 v = trunc8 v' := by
  apply BitVec.eq_of_toNat_eq
  rw [← Int.ofNat_inj, trunc8_toNat, trunc8_toNat, h]

@[simp] theorem trunc8_emod (v : Int) : trunc8 (v % 256) = trunc8 v :=
  trunc8_congr (Int.emod_emod v 256)

/-- The encoder reduces its inputs itself, so inputs already reduced give the same word (R93). -/
@[simp] theorem assemble_emod (o a b : Int) : assemble (o % 256) (a % 256) (b % 256) = assemble o a b := by
  simp only [assemble, trunc8_emod]

/-- A bit vector read unsigned is reduced to its low eight bits. -/
theorem trunc8_bitVec_toNat {n : Nat} (v : BitVec n) : trunc8 v.toNat = v.setWidth 8 := by
  rw [trunc8, BitVec.ofInt_natCast, BitVec.ofNat_toNat]

/-- A bit vector read signed is reduced to its low eight bits, if it has eight (D5). -/
theorem trunc8_bitVec_toInt {n : Nat} (v : BitVec n) (h : 8 ≤ n) : trunc8 v.toInt = v.setWidth 8 :=
  BitVec.signExtend_eq_setWidth_of_le v h

/-- Settles O4: truncation is the remainder, so an input and its remainder give the same word. -/
theorem truncationModulo : Obligations.TruncationModulo := by
  refine ⟨trunc8_toNat, fun n v h => ⟨trunc8_bitVec_toNat v, trunc8_bitVec_toInt v h⟩, by decide,
    fun o a b s => ⟨?_, exec_total _ s⟩⟩
  rw [exec_assemble, exec_assemble, assemble_emod]

/-- The field value of an input as a natural number (R93). -/
theorem trunc8_toNat_eq (v : Int) : (trunc8 v).toNat = (v % 256).toNat := by
  rw [← trunc8_toNat, Int.toNat_natCast]

/-- The result as the sum of the reduced inputs' weighted fields (R90). -/
theorem assemble_toNat (o a b : Int) :
    ((assemble o a b).toNat : Int) = (o % 256) * 65536 + (a % 256) * 256 + b % 256 := by
  simp only [assemble, packWord_toNat, ← trunc8_toNat]
  push_cast
  rfl

/-- The result as the OR of the reduced inputs' shifted fields (R90). -/
theorem assemble_toNat_or (o a b : Int) : (assemble o a b).toNat =
    ((o % 256).toNat <<< 16) ||| ((a % 256).toNat <<< 8) ||| (b % 256).toNat := by
  simp only [assemble, packWord_toNat_or, trunc8_toNat_eq]

/-- 256 is reduced to 0 (R93). -/
theorem trunc8_256 : trunc8 256 = trunc8 0 := trunc8_congr rfl

/-- Settles O5: the word on the port is the packed one, as a sum and as an OR, and 256 counts as 0. -/
theorem assembleResult : Obligations.AssembleResult := by
  refine ⟨fun o a b s => ⟨assemble o a b, exec_assemble o a b s, assemble_toNat o a b, assemble_toNat_or o a b⟩,
    by decide, by decide, fun x y => ?_, by decide, by decide⟩
  simp only [assemble, trunc8_256, and_self]

/-- Settles O6: a result is a word, its container's upper bits are 0, and a word has one triple. -/
theorem resultCoverage : Obligations.ResultCoverage := by
  refine ⟨fun o a b => Nat.le_pred_of_lt (assemble o a b).isLt, fun p o a b => ?_, fun n hn => ?_⟩
  · obtain ⟨-, -, hupper, -⟩ := wideContainer p (assemble o a b)
    exact hupper
  · obtain ⟨-, -, hunique⟩ := fieldRoundTrip
    have hword (w : Word) : w.toNat = n ↔ w = BitVec.ofNat 24 n := by
      rw [← BitVec.toNat_inj, BitVec.toNat_ofNat, Nat.mod_eq_of_lt (by omega)]
    simpa only [hword] using hunique (BitVec.ofNat 24 n)

/-- Numbers of two digits, the lower one below the base, are ordered by the upper digit first. -/
theorem mul_add_lt_iff_lex {n x y x' y' : Nat} (hy : y < n) (hy' : y' < n) :
    x * n + y < x' * n + y' ↔ x < x' ∨ (x = x' ∧ y < y') := by
  rcases lt_trichotomy x x' with hlt | rfl | hgt
  · have := Nat.mul_le_mul_right n (Nat.succ_le_of_lt hlt)
    rw [Nat.succ_mul] at this
    omega
  · omega
  · have := Nat.mul_le_mul_right n (Nat.succ_le_of_lt hgt)
    rw [Nat.succ_mul] at this
    omega

/-- Settles O7: a word is its opcode and a lower part below 2^16, which is operand1 and operand2 below 2^8. -/
theorem orderPreserved : Obligations.OrderPreserved := by
  intro o a b o' a' b'
  have ha := a.isLt
  have ha' := a'.isLt
  have hb := b.isLt
  have hb' := b'.isLt
  rw [assemble_bytes, assemble_bytes, packWord_toNat, packWord_toNat, Nat.add_assoc, Nat.add_assoc,
    mul_add_lt_iff_lex (by omega) (by omega), mul_add_lt_iff_lex hb hb', BitVec.toNat_inj, BitVec.toNat_inj]

theorem opcodeOf_xor (w w' : Word) : opcodeOf (w ^^^ w') = opcodeOf w ^^^ opcodeOf w' := BitVec.extractLsb'_xor

theorem operand1Of_xor (w w' : Word) : operand1Of (w ^^^ w') = operand1Of w ^^^ operand1Of w' :=
  BitVec.extractLsb'_xor

theorem operand2Of_xor (w w' : Word) : operand2Of (w ^^^ w') = operand2Of w ^^^ operand2Of w' :=
  BitVec.extractLsb'_xor

/-- The XOR of two words is the word of their fields' XORs. -/
theorem packWord_xor (o a b o' a' b' : Byte) :
    packWord o a b ^^^ packWord o' a' b' = packWord (o ^^^ o') (a ^^^ a') (b ^^^ b') := by
  rw [← packWord_fields (packWord o a b ^^^ packWord o' a' b'), opcodeOf_xor, operand1Of_xor, operand2Of_xor]
  simp only [opcodeOf_packWord, operand1Of_packWord, operand2Of_packWord]

theorem packWord_opcode_only (o : Byte) : packWord o 0 0 = o.setWidth 24 <<< 16 := by
  simp [packWord]

theorem packWord_operand1_only (a : Byte) : packWord 0 a 0 = a.setWidth 24 <<< 8 := by
  simp [packWord]

theorem packWord_operand2_only (b : Byte) : packWord 0 0 b = b.setWidth 24 := by
  simp [packWord]

/-- Settles O8: fields that agree have XOR 0, so only the changed field is left of the words' XOR. -/
theorem fieldIndependence : Obligations.FieldIndependence := by
  intro o a b v
  simp only [assemble_bytes, packWord_xor, BitVec.xor_self]
  exact ⟨packWord_opcode_only (o ^^^ v), packWord_operand1_only (a ^^^ v), packWord_operand2_only (b ^^^ v)⟩

end Sys2Proof.Machine
end

section
/-! PROOFS. The program memory's operations (`41_program_memory.md` R100 to R111): what each answers, and that the
population with any program that fits loads its words, leaves every other address and happens once (D7). -/

namespace Sys2Proof.Machine

theorem exec_construct (s : State) : exec .construct s = .next s.constructBlock := rfl

theorem exec_write (s : State) : exec .write s = .next (s.populateOnce demoConfig) := rfl

theorem exec_read (a : Nat) (s : State) : exec (.read a) s = .next (s.deliver (memRead s.mem a)) := rfl

/-- A second population changes nothing, the flag being set (R103). -/
@[simp] theorem State.populateOnce_populateOnce (c : ProgramConfig) (s : State) :
    (s.populateOnce c).populateOnce c = s.populateOnce c :=
  State.populateOnce_later c _ (State.populateOnce_initDone c s)

/-- Settles O20: below the program's length an address reads the program, from it on the memory before. -/
theorem generalProgramPopulation : Obligations.GeneralProgramPopulation := by
  intro c s hwf hclear
  refine ⟨State.populateOnce_initDone c s, populateOnce_wf c hwf, fun i hi => ?_, fun i hi => ?_,
    State.populateOnce_populateOnce c s⟩
  · rw [memRead_populateOnce c hwf hclear, dif_pos hi]
  · rw [memRead_populateOnce c hwf hclear, dif_neg (Nat.not_lt.2 hi)]

/-- Settles O17: the general population with the demonstration program, which has 30 words. -/
theorem firstWritePopulates : Obligations.FirstWritePopulates := by
  intro s hwf hclear
  obtain ⟨hset, -, hprogram, hrest, -⟩ := generalProgramPopulation demoConfig s hwf hclear
  refine ⟨_, exec_write s, hset, State.populateOnce_requests _ s, State.populateOnce_response _ s, hprogram,
    fun a ha => hrest a ?_, demoConfig_program_length⟩
  rwa [demoConfig_program_length]

/-- Settles O18: after a `write` the flag is set, and with the flag set `write` leaves the state as it is. -/
theorem writeIdempotent : Obligations.WriteIdempotent := by
  refine ⟨fun s => ⟨_, exec_write s, ?_⟩, fun s hset => ?_⟩
  · rw [exec_write, State.populateOnce_populateOnce]
  · rw [exec_write, State.populateOnce_later demoConfig s hset]

/-- Settles O19: the first `write` of a blank memory, whose other addresses read 0. -/
theorem writeFullResult : Obligations.WriteFullResult := by
  intro s hblank hclear
  have hwf : s.mem.wf = true := hblank ▸ blank_wf
  obtain ⟨hset, -, hprogram, hrest, -⟩ := generalProgramPopulation demoConfig s hwf hclear
  refine ⟨_, exec_write s, State.populateOnce_response _ s, State.populateOnce_requests _ s, hset, hprogram,
    fun i hi _ => ?_⟩
  rw [hrest i hi, hblank]
  exact memRead_blank i

/-- Settles O21: a program is taken exactly when it fits, and the ranges are not looked at. -/
theorem longProgramRefused : Obligations.LongProgramRefused :=
  ⟨fun _ _ hlong => dif_neg (Nat.not_le.2 hlong),
    fun ts rs hfits => ⟨⟨ts, rs, hfits⟩, make?_program_ranges ⟨ts, rs, hfits⟩, rfl, rfl⟩,
    demoConfig_program_length⟩

/-- Settles O15: the memory is blank and the flag clear, whatever they were. -/
theorem constructCompletes : Obligations.ConstructCompletes :=
  fun s => ⟨s.constructBlock, exec_construct s, memRead_blank, s.constructBlock_initDone, s.constructBlock_mem,
    s.constructBlock_requests, s.constructBlock_response⟩

/-- Settles O16: an operation asked for is never `construct`, and a fetched word is none of the block's operations. -/
theorem noRequestConstructs : Obligations.NoRequestConstructs := requestInstr_ne_construct

/-- Settles O22: the word at the address, on either side of the capacity. -/
theorem readResult : Obligations.ReadResult :=
  fun a s => ⟨memRead s.mem a, exec_read a s, memRead_of_lt_capacity s.mem, memRead_of_capacity_le s.mem⟩

/-- Settles O23: a constructed block's memory is blank. -/
theorem readBeforeWrite : Obligations.ReadBeforeWrite := by
  intro s a hs hclear
  have hword : memRead s.mem a = nopWord := by
    rw [hs.mem_of_constructed hclear, memRead_blank]
  rw [exec_read, hword]
  rfl

/-- Settles O24: an initialized block's memory is the image, whose words are packed from the truncated components. -/
theorem readReturnsProgram : Obligations.ReadReturnsProgram := by
  intro s i hi hs hset
  have hword : memRead s.mem i = assembleTriple demoConfig.program[i] := by
    rw [hs.mem_of_initialized hset, memRead_image, dif_pos hi]
  refine ⟨memRead s.mem i, exec_read i s, hword, ?_⟩
  rw [hword]
  exact ⟨opcodeOf_packWord .., operand1Of_packWord .., operand2Of_packWord ..⟩

end Sys2Proof.Machine
end

section
/-! PROOFS. The stored program (`42_stored_program.md` R120 to R130): what an initialized block holds at the two known
addresses and past the program, the program's four conditions, and the word rows at this block. -/

namespace Sys2Proof.Machine

/-- An initialized block reads as the image (R120). -/
theorem State.InLifecycle.memRead_initialized {s : State} (hs : s.InLifecycle) (hset : s.initDone = true) (a : Nat) :
    memRead s.mem a = memRead (image demoConfig) a := by
  rw [hs.mem_of_initialized hset]

/-- The demonstration population leaves every address past the program as it was (R124). -/
theorem memRead_populateFrom_tail {m : Memory} (h : m.wf = true) {a : Nat} (ha : 30 ≤ a) :
    memRead (populateFrom m 0 demoConfig.program) a = memRead m a := by
  have hfit := demoConfig.fits
  have hlen := demoConfig_program_length
  rw [memRead_populateFrom h 0 demoConfig.program (by omega), dif_neg (by omega)]

/-- Settles O25: the image ends at address 30, and a step keeps the memory or populates it. -/
theorem tailReadsZero : Obligations.TailReadsZero := by
  refine ⟨fun s a hs hset ha _ => ?_, fun s t a hwf h ha => ?_⟩
  · have hword : memRead s.mem a = nopWord := by
      rw [hs.memRead_initialized hset, memRead_image_tail ha]
    rw [exec_read, hword]
    rfl
  · rcases step_block_cases h with ⟨hmem, -⟩ | ⟨-, -, -, hmem⟩
    · rw [hmem]
    · rw [hmem, memRead_populateFrom_tail hwf ha]

theorem fetchInstr_jmp {m : Memory} {a : Nat} {t x : Byte}
    (h : memRead m a = targetWord Config.params.opJmp Config.params.jmpTargetSlot t x) (h0 : memRead m a ≠ nopWord) :
    fetchInstr m a = .jmp t x := by
  rw [fetchInstr, h, decodeWord_jmp (h ▸ h0)]

/-- A stored call word is fetched as a call, where the two open opcodes tell the rows apart (R128). -/
theorem fetchInstr_call {m : Memory} {a : Nat} {t y : Byte} (hne : Config.params.opCall ≠ Config.params.opJmp)
    (h : memRead m a = targetWord Config.params.opCall Config.params.callTargetSlot t y)
    (h0 : memRead m a ≠ nopWord) : fetchInstr m a = .call t y := by
  rw [fetchInstr, h, decodeWord_call hne (h ▸ h0)]

/-- Settles O27: the image's word at address 0 is the word of the jump to 8. -/
theorem jumpAtZero : Obligations.JumpAtZero := by
  intro s hs hset
  have hread := hs.memRead_initialized hset 0
  have hword := hread.trans memRead_image_zero
  have hne : memRead s.mem 0 ≠ nopWord := hread.trans_ne memRead_image_zero_ne_nop
  refine ⟨memRead s.mem 0, exec_read 0 s, ?_, ?_, hne, fetchInstr_jmp hword hne⟩
  · rw [hword, opcodeOf_targetWord]
  · rw [hword, targetOf_targetWord]

/-- Settles O28: the image's word at address 8 is the word of the call of 18. -/
theorem callAtEight : Obligations.CallAtEight := by
  intro s hs hset
  have hread := hs.memRead_initialized hset 8
  have hword := hread.trans memRead_image_eight
  have hne : memRead s.mem 8 ≠ nopWord := hread.trans_ne memRead_image_eight_ne_nop
  refine ⟨memRead s.mem 8, exec_read 8 s, ?_, ?_, hne, ?_⟩
  · rw [hword, opcodeOf_targetWord]
  · rw [hword, targetOf_targetWord]
  · by_cases hops : Config.params.opCall = Config.params.opJmp
    · exact .inr hops
    · exact .inl (fetchInstr_call hops hword hne)

theorem demoProgram_entry (p : Params) (x y : Byte) (free : Nat → Byte × Byte × Byte) {i : Nat} (hi : i < 30) :
    (demoProgram p x y free)[i]? = some (demoTriple p x y free i) := by
  simp [demoProgram, programLen, hi]

/-- A jump or call triple has its opcode, and its target in the field the slot names (R121, R122). -/
theorem targetTriple_components (op : Byte) (slot : OperandSlot) (t x : Byte) :
    (targetTriple op slot t x).opcode = op.toNat ∧
      (slot = .operand1 → (targetTriple op slot t x).operand1 = t.toNat) ∧
      (slot = .operand2 → (targetTriple op slot t x).operand2 = t.toNat) := by
  cases slot
  · exact ⟨rfl, fun _ => rfl, nofun⟩
  · exact ⟨rfl, nofun, fun _ => rfl⟩

theorem targetTriple_eq_tripleOfFields (op : Byte) (slot : OperandSlot) (t x : Byte) :
    ∃ o a b, targetTriple op slot t x = tripleOfFields o a b := by
  cases slot <;> exact ⟨_, _, _, rfl⟩

/-- Every entry of the demonstration program is a triple of three bytes (R127). -/
theorem demoTriple_eq_tripleOfFields (p : Params) (x y : Byte) (free : Nat → Byte × Byte × Byte) (i : Nat) :
    ∃ o a b, demoTriple p x y free i = tripleOfFields o a b := by
  unfold demoTriple
  split
  · exact targetTriple_eq_tripleOfFields ..
  · split
    · exact targetTriple_eq_tripleOfFields ..
    · exact ⟨_, _, _, rfl⟩

theorem byte_bounds (b : Byte) : 0 ≤ (b.toNat : Int) ∧ (b.toNat : Int) ≤ 255 := by
  have := b.isLt
  omega

/-- Settles O29: the entries are triples of bytes, and those at 0 and 8 are the jump's and the call's. -/
theorem demoProgramWellFormed : Obligations.DemoProgramWellFormed := by
  refine fun p x y free => ⟨demoProgram_length p x y free, fun t ht => ?_,
    ⟨_, demoProgram_entry p x y free (by decide), targetTriple_components p.opJmp p.jmpTargetSlot 8 x⟩,
    ⟨_, demoProgram_entry p x y free (by decide), targetTriple_components p.opCall p.callTargetSlot 18 y⟩⟩
  obtain ⟨i, -, rfl⟩ := List.mem_map.1 ht
  obtain ⟨o, a, b, hfields⟩ := demoTriple_eq_tripleOfFields p x y free i
  rw [hfields]
  exact ⟨byte_bounds o, byte_bounds a, byte_bounds b⟩

/-! What each word row answers: its word on the read port (R78, R121 to R123; log 6). -/

theorem exec_any (o a b : Byte) (s : State) : exec (.any o a b) s = .next (s.deliver (packWord o a b)) := rfl

theorem exec_nop (s : State) : exec .nop s = .next (s.deliver nopWord) := rfl

theorem exec_jmp (t x : Byte) (s : State) : exec (.jmp t x) s =
    .next (s.deliver (targetWord Config.params.opJmp Config.params.jmpTargetSlot t x)) := rfl

theorem exec_call (t y : Byte) (s : State) : exec (.call t y) s =
    .next (s.deliver (targetWord Config.params.opCall Config.params.callTargetSlot t y)) := rfl

/-- Settles O30: each row delivers its word, and a packed word has the fields it was packed from. -/
theorem storedWordsReturned : Obligations.StoredWordsReturned := by
  refine fun s => ⟨fun o a b => ⟨_, exec_any o a b s, ?_⟩, exec_nop s, fun t x => ⟨_, exec_jmp t x s, ?_⟩,
    fun t y => ⟨_, exec_call t y s, ?_⟩⟩
  · exact ⟨opcodeOf_packWord .., operand1Of_packWord .., operand2Of_packWord ..⟩
  · exact ⟨opcodeOf_targetWord .., targetOf_targetWord .., otherOf_targetWord ..⟩
  · exact ⟨opcodeOf_targetWord .., targetOf_targetWord .., otherOf_targetWord ..⟩

end Sys2Proof.Machine
end

section
/-! PROOFS. The symbol table (`43_symbol_table.md` R141 to R149): what a table without gaps answers at an address, the
demonstration table as one such, the order of the scan, and the tables derived from a labelled list (log 16, 24). -/

namespace Sys2Proof.Machine

/-! Tables whose ranges follow one another without a gap (R142). -/

/-- No address lies in two ranges of a table without gaps. -/
theorem eq_of_cover_contains {lo stop a : Nat} {rs : List SubroutineRange} (h : rangesCover lo stop rs = true)
    {r r' : SubroutineRange} (hr : r ∈ rs) (hr' : r' ∈ rs) (hin : rangeContains r a = true)
    (hin' : rangeContains r' a = true) : r = r' := by
  rw [rangeContains_iff] at hin hin'
  obtain ⟨-, hbounds, hunique⟩ := rangesCover_unique h
  have hb := hbounds r hr
  exact (hunique a (by omega) (by omega)).unique ⟨hr, hin⟩ ⟨hr', hin'⟩

/-- No address from a table's end on lies in one of its ranges. -/
theorem not_contains_of_cover_stop_le {lo stop a : Nat} {rs : List SubroutineRange}
    (h : rangesCover lo stop rs = true) (ha : stop ≤ a) {r : SubroutineRange} (hr : r ∈ rs) :
    rangeContains r a = false := by
  obtain ⟨-, hbounds, -⟩ := rangesCover_unique h
  have hb := hbounds r hr
  rw [Bool.eq_false_iff, ne_eq, rangeContains_iff]
  omega

theorem lookupName_of_cover_contains {lo stop a : Nat} {rs : List SubroutineRange}
    (h : rangesCover lo stop rs = true) {r : SubroutineRange} (hr : r ∈ rs) (hin : rangeContains r a = true) :
    lookupName rs a = r.name :=
  lookupName_unique hr hin fun _ hr' hin' => eq_of_cover_contains h hr' hr hin' hin

theorem lookupName_of_cover_stop_le {lo stop a : Nat} {rs : List SubroutineRange}
    (h : rangesCover lo stop rs = true) (ha : stop ≤ a) : lookupName rs a = unknownName :=
  lookupName_none fun _ => not_contains_of_cover_stop_le h ha

theorem rangesCover_cons (lo stop : Nat) (r : SubroutineRange) (rest : List SubroutineRange) :
    rangesCover lo stop (r :: rest) = true ↔
      r.start = lo ∧ r.start < r.stop ∧ rangesCover r.stop stop rest = true := by
  simp [rangesCover, and_assoc]

/-- Each range of a table without gaps ends where the next one starts. -/
theorem rangesCover_adjacent {lo stop k : Nat} {rs : List SubroutineRange} (h : rangesCover lo stop rs = true)
    {r r' : SubroutineRange} (hr : rs[k]? = some r) (hr' : rs[k + 1]? = some r') : r.stop = r'.start := by
  induction rs generalizing lo k with
  | nil => simp at hr
  | cons d rest ih =>
    obtain ⟨-, -, hrest⟩ := (rangesCover_cons ..).1 h
    rw [List.getElem?_cons_succ] at hr'
    cases k with
    | zero =>
      obtain rfl : d = r := by simpa using hr
      cases rest with
      | nil => simp at hr'
      | cons d' tail =>
        obtain rfl : d' = r' := by simpa using hr'
        obtain ⟨hstart, -, -⟩ := (rangesCover_cons ..).1 hrest
        exact hstart.symm
    | succ k => exact ih hrest (by simpa using hr) hr'

/-! The demonstration table (R141, R145). -/

theorem demoRanges_cover : rangesCover 0 30 demoRanges = true := by decide

/-- Settles O36: the table has no gaps from 0 to 30; its sizes are a closed computation. -/
theorem rangePartition : Obligations.RangePartition := by
  obtain ⟨-, hbounds, hunique⟩ := rangesCover_unique demoRanges_cover
  refine ⟨fun r hr => ?_, fun k r r' => rangesCover_adjacent demoRanges_cover, by decide, by decide, by decide,
    fun a => hunique a (Nat.zero_le a), fun a ha r hr hin => ?_, demoConfig_ranges⟩
  · obtain ⟨-, hlt, -⟩ := hbounds r hr
    exact hlt
  · rw [← rangeContains_iff, not_contains_of_cover_stop_le demoRanges_cover ha hr] at hin
    cases hin

/-- The name of an address between the start and the end of an entry of the table. -/
theorem lookupName_demoRanges_entry {a : Nat} (start stop : Nat) {name : String}
    (hentry : ⟨start, stop, name⟩ ∈ demoRanges) (hlo : start ≤ a) (hhi : a < stop) :
    lookupName demoRanges a = name :=
  lookupName_of_cover_contains demoRanges_cover hentry ((rangeContains_iff ..).2 ⟨hlo, hhi⟩)

/-- The complete function of R145, one case per entry of the table and one past its end. -/
theorem lookupName_demoRanges (a : Nat) : lookupName demoRanges a =
    if a ≤ 7 then "RESET_vect" else if a = 8 then "main" else if a ≤ 12 then "main_loop"
    else if a ≤ 17 then "led_blink" else if a ≤ 20 then "setup" else if a ≤ 23 then "init_ports"
    else if a ≤ 29 then "init_registers" else "Unknown" := by
  split_ifs
  · exact lookupName_demoRanges_entry 0 8 (by decide) (by omega) (by omega)
  · exact lookupName_demoRanges_entry 8 9 (by decide) (by omega) (by omega)
  · exact lookupName_demoRanges_entry 9 13 (by decide) (by omega) (by omega)
  · exact lookupName_demoRanges_entry 13 18 (by decide) (by omega) (by omega)
  · exact lookupName_demoRanges_entry 18 21 (by decide) (by omega) (by omega)
  · exact lookupName_demoRanges_entry 21 24 (by decide) (by omega) (by omega)
  · exact lookupName_demoRanges_entry 24 30 (by decide) (by omega) (by omega)
  · exact lookupName_of_cover_stop_le demoRanges_cover (by omega)

theorem exec_subroutineName (a : Nat) (s : State) :
    exec (.subroutineName a) s = .next (s.respond (.nameO (lookupName demoRanges a))) := rfl

/-- Settles O35: the operation puts the scan's answer on its port. -/
theorem nameByAddress : Obligations.NameByAddress := by
  intro a s
  rw [exec_subroutineName, lookupName_demoRanges]
  rfl

/-- Settles O38: the answer names no state. -/
theorem nameIndependentOfWrite : Obligations.NameIndependentOfWrite := by
  intro s s' t t' a h h'
  rw [exec_subroutineName] at h h'
  cases h
  cases h'
  rw [State.respond_response, State.respond_response]

/-! The order of the scan (R143, R144, log 16). -/

/-- Ranges before the first match do not count. -/
theorem lookupName_append_of_miss {before : List SubroutineRange} {a : Nat}
    (h : ∀ r ∈ before, rangeContains r a = false) (rest : List SubroutineRange) :
    lookupName (before ++ rest) a = lookupName rest a := by
  induction before with
  | nil => rfl
  | cons r before ih =>
    rw [List.cons_append, lookupName_miss (h r List.mem_cons_self)]
    exact ih fun r' hr' => h r' (List.mem_cons_of_mem r hr')

/-- Two orders of one table, no address in two of its ranges: the one range that holds the address, or none, is the same
in both. -/
theorem lookupName_perm {rs rs' : List SubroutineRange} {a : Nat} (hperm : rs.Perm rs')
    (honly : ∀ r ∈ rs, ∀ r' ∈ rs, rangeContains r a = true → rangeContains r' a = true → r = r') :
    lookupName rs a = lookupName rs' a := by
  by_cases hhit : ∃ r ∈ rs, rangeContains r a = true
  · obtain ⟨r, hr, hin⟩ := hhit
    have hunique : ∀ r' ∈ rs, rangeContains r' a = true → r' = r := fun r' hr' hin' => honly r' hr' r hr hin' hin
    rw [lookupName_unique hr hin hunique,
      lookupName_unique (hperm.mem_iff.1 hr) hin fun r' hr' => hunique r' (hperm.mem_iff.2 hr')]
  · have hmiss : ∀ r ∈ rs, rangeContains r a = false := fun r hr =>
      Bool.eq_false_iff.2 fun hin => hhit ⟨r, hr, hin⟩
    rw [lookupName_none hmiss, lookupName_none fun r hr => hmiss r (hperm.mem_iff.2 hr)]

/-- Settles O37: two orders agree, the demonstration table has no overlap, and the first match is answered. -/
theorem scanOrderIrrelevant : Obligations.ScanOrderIrrelevant := by
  refine ⟨fun rs rs' a => lookupName_perm, fun a r hr r' hr' => eq_of_cover_contains demoRanges_cover hr hr',
    fun before after r a hmiss hin => ?_⟩
  rw [lookupName_append_of_miss hmiss, lookupName_hit hin]

/-! Tables derived from one labelled list (R149). -/

theorem make?_some {program : List Triple} {ranges : List SubroutineRange} {c : ProgramConfig}
    (h : ProgramConfig.make? program ranges = some c) : c.program = program ∧ c.ranges = ranges := by
  obtain ⟨_, hc⟩ := Option.dite_none_right_eq_some.1 h
  cases hc
  exact ⟨rfl, rfl⟩

/-- Where the first entry is labelled, the derived ranges cover the list from its first entry on. -/
theorem rangesFrom_cover_of_labelled {α : Type} (n0 : String) (v0 : α) (rest : List (Option String × α)) :
    rangesCover 0 ((some n0, v0) :: rest).length (rangesFrom 0 ((some n0, v0) :: rest)) = true := by
  simpa only [nextLabel, Nat.zero_add] using rangesFrom_cover 0 ((some n0, v0) :: rest)

/-- Settles O39: the derived ranges cover the program, and a label names the position it stands at. -/
theorem derivedRangesPartition : Obligations.DerivedRangesPartition := by
  intro n0 t0 rest c h
  obtain ⟨hprogram, hranges⟩ := make?_some h
  have hcover := rangesFrom_cover_of_labelled n0 t0 rest
  have hlen : c.program.length = ((some n0, t0) :: rest).length := by rw [hprogram, List.length_map]
  rw [← hranges, ← hlen] at hcover
  obtain ⟨-, -, hunique⟩ := rangesCover_unique hcover
  exact ⟨hprogram, fun a => hunique a (Nat.zero_le a), fun a => lookupName_of_cover_stop_le hcover,
    fun i name t hi => hranges ▸ lookupName_rangesFrom hi⟩

/-! Label agreement (R203, log 24). -/

theorem isLabelAddress_iff (rs : List SubroutineRange) (t : Byte) :
    isLabelAddress rs t = true ↔ ∃ r ∈ rs, r.start = t.toNat := by
  simp [isLabelAddress]

/-- An entry agrees with a table when its target, if it is a jump or a call, is a label's address. -/
theorem entryAgrees_iff (p : Params) (rs : List SubroutineRange) (t : Triple) :
    entryAgrees p rs t = true ↔ ∀ a x, decodeWord p (assembleTriple t) = .jmp a x ∨
      decodeWord p (assembleTriple t) = .call a x → isLabelAddress rs a = true := by
  unfold entryAgrees
  cases decodeWord p (assembleTriple t) <;> simp

theorem labelsAgree_iff (p : Params) (c : ProgramConfig) :
    labelsAgree p c = true ↔
      rangesCover 0 c.program.length c.ranges = true ∧ ∀ t ∈ c.program, entryAgrees p c.ranges t = true := by
  simp [labelsAgree]

/-- A jump or call of the image is the word of an entry of the program: past the program stands the no-op word. -/
theorem exists_entry_of_image_jump_or_call {p : Params} {c : ProgramConfig} {a : Nat} {t x : Byte}
    (h : decodeWord p (memRead (image c) a) = .jmp t x ∨ decodeWord p (memRead (image c) a) = .call t x) :
    ∃ e ∈ c.program, memRead (image c) a = assembleTriple e := by
  rw [memRead_image] at h ⊢
  split_ifs at h ⊢ with ha
  · exact ⟨c.program[a], List.getElem_mem ha, rfl⟩
  · simp at h

/-- In a configuration whose labels agree, the target of a jump or call of the image is the start of a range (R203). -/
theorem image_target_isLabelAddress {p : Params} {c : ProgramConfig} {a : Nat} {t x : Byte}
    (hagree : labelsAgree p c = true)
    (h : decodeWord p (memRead (image c) a) = .jmp t x ∨ decodeWord p (memRead (image c) a) = .call t x) :
    isLabelAddress c.ranges t = true := by
  obtain ⟨-, hentries⟩ := (labelsAgree_iff p c).1 hagree
  obtain ⟨e, he, hword⟩ := exists_entry_of_image_jump_or_call h
  rw [hword] at h
  exact (entryAgrees_iff ..).1 (hentries e he) t x h

/-- A word that, unless it is the no-op word, decodes to a jump or call of `t` has no other target. -/
theorem target_eq_of_decodeWord {p : Params} {w : Word} {t x b z : Byte}
    (hrow : w ≠ nopWord → decodeWord p w = .jmp t x ∨ decodeWord p w = .call t x)
    (h : decodeWord p w = .jmp b z ∨ decodeWord p w = .call b z) : b = t := by
  by_cases h0 : w = nopWord
  · simp [h0] at h
  · rcases hrow h0 with hd | hd
    · simp only [hd, Instr.jmp.injEq, reduceCtorEq, or_false] at h
      exact h.1.symm
    · simp only [hd, Instr.call.injEq, reduceCtorEq, false_or] at h
      exact h.1.symm

/-- A symbolic address constant that fits a byte is a label's address as a target too. -/
theorem isLabelAddress_of_labelAddress {rs : List SubroutineRange} {name : String} {a : Nat}
    (h : labelAddress rs name = some a) (ha : a < 256) : isLabelAddress rs (BitVec.ofNat 8 a) = true := by
  obtain ⟨r, hr, -, hstart⟩ := labelAddress_some h
  refine (isLabelAddress_iff ..).2 ⟨r, hr, ?_⟩
  rw [hstart, BitVec.toNat_ofNat, Nat.mod_eq_of_lt ha]

/-- In a table without gaps that ends within the memory every label's address fits a byte. -/
theorem labelAddress_lt_of_cover {lo stop a : Nat} {rs : List SubroutineRange} {name : String}
    (hcover : rangesCover lo stop rs = true) (hfit : stop ≤ capacity) (h : labelAddress rs name = some a) :
    a < 256 := by
  obtain ⟨r, hr, -, rfl⟩ := labelAddress_some h
  obtain ⟨-, hbounds, -⟩ := rangesCover_unique hcover
  obtain ⟨-, hlt, hle⟩ := hbounds r hr
  exact hlt.trans_le (hle.trans hfit)

/-- Every triple of a resolved source list is that of one of its items. -/
theorem exists_item_of_mem_resolveAll {p : Params} {rs : List SubroutineRange}
    {es : List (Option String × SourceItem)} {ts : List Triple} {t : Triple} (h : resolveAll p rs es = some ts)
    (ht : t ∈ ts) : ∃ l item, (l, item) ∈ es ∧ resolveItem p rs item = some t := by
  obtain ⟨hlen, hat⟩ := resolveAll_some h
  obtain ⟨i, hi, rfl⟩ := List.getElem_of_mem ht
  have hie : i < es.length := hlen ▸ hi
  obtain ⟨t', ht', hres⟩ := hat i es[i].1 es[i].2 (List.getElem?_eq_getElem hie)
  rw [List.getElem?_eq_getElem hi] at ht'
  exact ⟨_, _, List.getElem_mem hie, ht'.symm ▸ hres⟩

/-- A source item's triple agrees with the table its label is resolved in, if a raw item is no jump or call. -/
theorem entryAgrees_of_resolveItem {p : Params} {rs : List SubroutineRange} {item : SourceItem} {t : Triple}
    (hne : p.opCall ≠ p.opJmp) (hbyte : ∀ name a, labelAddress rs name = some a → a < 256)
    (hraw : ∀ u, item = .fields u → ∀ a x,
      decodeWord p (assembleTriple u) ≠ .jmp a x ∧ decodeWord p (assembleTriple u) ≠ .call a x)
    (h : resolveItem p rs item = some t) : entryAgrees p rs t = true := by
  rw [entryAgrees_iff]
  intro b z hdecode
  cases item with
  | fields u =>
    cases h
    obtain ⟨hnojmp, hnocall⟩ := hraw t rfl b z
    exact absurd hdecode (not_or.2 ⟨hnojmp, hnocall⟩)
  | jump name x =>
    obtain ⟨a, ha, rfl⟩ := Option.map_eq_some_iff.1 h
    rw [assembleTriple_target] at hdecode
    obtain rfl := target_eq_of_decodeWord (fun h0 => .inl (decodeWord_jmp h0)) hdecode
    exact isLabelAddress_of_labelAddress ha (hbyte name a ha)
  | call name y =>
    obtain ⟨a, ha, rfl⟩ := Option.map_eq_some_iff.1 h
    rw [assembleTriple_target] at hdecode
    obtain rfl := target_eq_of_decodeWord (fun h0 => .inr (decodeWord_call hne h0)) hdecode
    exact isLabelAddress_of_labelAddress ha (hbyte name a ha)

/-- Settles O60: a label's address is the start of a range of the covered program; the derived ranges cover the program,
and an item's target is its label's address. -/
theorem agreedTargetsAreLabels : Obligations.AgreedTargetsAreLabels := by
  refine ⟨fun p c a t x hagree hdecode => ?_, fun p n0 item0 rest c hne hsource hraw => ?_⟩
  · obtain ⟨hcover, -⟩ := (labelsAgree_iff p c).1 hagree
    obtain ⟨r, hr, hstart⟩ := (isLabelAddress_iff ..).1 (image_target_isLabelAddress hagree hdecode)
    obtain ⟨-, hbounds, -⟩ := rangesCover_unique hcover
    obtain ⟨-, hlt, hle⟩ := hbounds r hr
    rw [← hstart]
    exact ⟨hlt.trans_le hle, r, hr, rfl, lookupName_of_cover hcover hr⟩
  · obtain ⟨hranges, hprogram⟩ := configOfSource_some hsource
    obtain ⟨hlen, -⟩ := resolveAll_some hprogram
    have hcover := rangesFrom_cover_of_labelled n0 item0 rest
    rw [← hranges, ← hlen] at hcover
    rw [← hranges] at hprogram
    refine (labelsAgree_iff p c).2 ⟨hcover, fun t ht => ?_⟩
    obtain ⟨l, item, hmem, hres⟩ := exists_item_of_mem_resolveAll hprogram ht
    exact entryAgrees_of_resolveItem hne (fun _ _ => labelAddress_lt_of_cover hcover c.fits)
      (fun u hu => hraw l u (hu ▸ hmem)) hres

end Sys2Proof.Machine
end

section
/-! PROOFS. The agents' rights and duties (`60_exceptions.md` R172, R177). The block does not look at the sender;
the readers leave it as it is because of what they may ask for, and a step keeps these duties met. No operation stops
(R160). -/

namespace Sys2Proof.Machine

/-- A step runs the operation asked for, whoever asks: a fetch too does what `read` does (R44, R172). -/
theorem step_eq_exec_operationInstr {s : State} {q : Request} {rest : List Request} (hq : s.requests = q :: rest) :
    step s = exec (operationInstr q.operation) (s.accept rest) := by
  obtain ⟨ag, op⟩ := q
  cases op with
  | read a => exact step_read hq
  | _ => exact step_operation hq fun _ _ => nofun

/-- Settles O34: the operation alone tells what a step does. -/
theorem senderDoesNotMatter : Obligations.SenderDoesNotMatter := by
  intro s ag ag' op rest
  have hstep (a : Agent) : step { s with requests := ⟨a, op⟩ :: rest } = exec (operationInstr op) (s.accept rest) :=
    step_eq_exec_operationInstr (q := ⟨a, op⟩) rfl
  rw [hstep ag, hstep ag']

/-- The right to `write` is the bootstrap owner's alone (R172). -/
theorem permitted_write_iff (ag : Agent) : permitted ag .write = true ↔ ag = .bootstrapOwner := by
  cases ag <;> decide

/-- Settles O55: a permitted request of another agent is no `write`, so the step keeps the block. -/
theorem readersCannotWrite : Obligations.ReadersCannotWrite := by
  intro s t q rest hq hag hperm h
  have hno : q.operation ≠ .write := fun hop => hag ((permitted_write_iff q.agent).1 (hop ▸ hperm))
  exact step_keeps_block (by simpa [hq] using hno) h

theorem step_keeps_allPermitted {s t : State} (hs : s.AllPermitted) (h : step s = .next t) : t.AllPermitted := by
  intro q hq
  rw [step_requests h] at hq
  exact hs q (List.mem_of_mem_drop hq)

/-- Settles O48: a step takes a request off the list, and the first `write` sets the flag. -/
theorem stepKeepsDuties : Obligations.StepKeepsDuties :=
  fun _ _ h => ⟨fun hs => step_keeps_allPermitted hs h, fun hs => step_keeps_bootOrdered hs h⟩

/-- Settles O49: the instructions by cases on the row, the runs by induction on the number of steps. -/
theorem blockNeverStops : Obligations.BlockNeverStops := ⟨exec_total, run_total⟩

end Sys2Proof.Machine
end
